-- ==== Sys2Proof/Word.lean ====
section
/-! DEFINITION. The word types of the hnc8 core: bytes and 16-bit words, all unsigned (00_scope.md R8). -/

namespace Sys2Proof

/-- An 8-bit unsigned value: a general register, a timer, a byte of memory (10_state.md R20). -/
abbrev Byte := BitVec 8

/-- A 16-bit unsigned value: an opcode, `pc`, `I`, a return address (10_state.md R22, R23, R24). -/
abbrev Word := BitVec 16

/-- A 4-bit field of an opcode (30_encoding.md R91). -/
abbrev Nibble := BitVec 4

end Sys2Proof
end

