-- ==== Sys2Proof/Syntax.lean ====
section
/-! DEFINITION. The instructions of the hnc8 core: one constructor for each row of spec/opcode_table.json
(30_encoding.md R107), the catch-all row `GAP` included. Bits of a word that the decode tree does not examine are kept in a
field `ign` (R94, R98), so that an instruction determines its word; no meaning reads them. -/

namespace Sys2Proof

/-- The number of a general register, `V0`..`VF` (10_state.md R20, 30_encoding.md R91). -/
abbrev Reg := Fin 16

/-- The number of `VF`, the flag register by convention (10_state.md R21). -/
def Reg.flag : Reg := 15

/-- One constructor per row of the opcode table (30_encoding.md R107). -/
inductive Instr where
  /-- `0?E0` Clear-screen (45_display.md R240); `ign` is bits 11:8. -/
  | cls (ign : Nibble)
  /-- `0?EE` Return (41_control_flow.md R150); `ign` is bits 11:8. -/
  | ret (ign : Nibble)
  /-- `0nnn`, low byte neither `E0` nor `EE`: executes as a decode gap (40_execution_cycle.md R134). -/
  | sys (nnn : BitVec 12)
  /-- `1nnn` Jump (41_control_flow.md R151). -/
  | jp (nnn : BitVec 12)
  /-- `2nnn` Call (41_control_flow.md R152). -/
  | call (nnn : BitVec 12)
  /-- `3xkk` Skip-if-equal, immediate (41_control_flow.md R153). -/
  | seImm (x : Reg) (kk : Byte)
  /-- `4xkk` Skip-if-not-equal, immediate (41_control_flow.md R154). -/
  | sneImm (x : Reg) (kk : Byte)
  /-- `5xy?` Skip-if-equal, registers (41_control_flow.md R155); `ign` is the low nibble. -/
  | seReg (x y : Reg) (ign : Nibble)
  /-- `6xkk` Load immediate (42_alu.md R171). -/
  | ldImm (x : Reg) (kk : Byte)
  /-- `7xkk` Add immediate (42_alu.md R172). -/
  | addImm (x : Reg) (kk : Byte)
  /-- `8xy0` Register-copy (42_alu.md R173). -/
  | ldReg (x y : Reg)
  /-- `8xy1` Bitwise OR (42_alu.md R174). -/
  | orReg (x y : Reg)
  /-- `8xy2` Bitwise AND (42_alu.md R175). -/
  | andReg (x y : Reg)
  /-- `8xy3` Bitwise XOR (42_alu.md R176). -/
  | xorReg (x y : Reg)
  /-- `8xy4` Add register-register (42_alu.md R177). -/
  | addReg (x y : Reg)
  /-- `8xy5` Subtract (42_alu.md R178). -/
  | subReg (x y : Reg)
  /-- `8xy6` Shift-right (42_alu.md R179); `y` is present in the word and ignored. -/
  | shr (x y : Reg)
  /-- `8xy7` Reverse-subtract (42_alu.md R180). -/
  | subnReg (x y : Reg)
  /-- `8xyE` Shift-left (42_alu.md R181); `y` is present in the word and ignored. -/
  | shl (x y : Reg)
  /-- `9xy?` Skip-if-not-equal, registers (41_control_flow.md R156); `ign` is the low nibble. -/
  | sneReg (x y : Reg) (ign : Nibble)
  /-- `Annn` Load index (43_index_memory.md R200). -/
  | ldI (nnn : BitVec 12)
  /-- `Bnnn` Jump with offset `V0` (41_control_flow.md R157). -/
  | jpV0 (nnn : BitVec 12)
  /-- `Cxkk` Random (42_alu.md R182). -/
  | rnd (x : Reg) (kk : Byte)
  /-- `Dxyn` Draw, sprite blit (45_display.md R241). -/
  | drw (x y : Reg) (n : Nibble)
  /-- `Ex9E` Skip-if-key-pressed (44_timers_keys.md R220). -/
  | skp (x : Reg)
  /-- `ExA1` Skip-if-key-not-pressed (44_timers_keys.md R221). -/
  | sknp (x : Reg)
  /-- `Fx07` Load-delay-timer (44_timers_keys.md R222). -/
  | ldVxDt (x : Reg)
  /-- `Fx0A` Wait-for-key (44_timers_keys.md R223). -/
  | ldVxK (x : Reg)
  /-- `Fx15` Store-delay-timer (44_timers_keys.md R224). -/
  | ldDtVx (x : Reg)
  /-- `Fx18` Store-sound-timer (44_timers_keys.md R225). -/
  | ldStVx (x : Reg)
  /-- `Fx1E` Add-to-index (43_index_memory.md R201). -/
  | addI (x : Reg)
  /-- `Fx29` Load-font-address (43_index_memory.md R202). -/
  | ldF (x : Reg)
  /-- `Fx33` Store-BCD (43_index_memory.md R204). -/
  | ldB (x : Reg)
  /-- `Fx55` Register-dump (43_index_memory.md R205). -/
  | ldMemVx (x : Reg)
  /-- `Fx65` Register-load (43_index_memory.md R206). -/
  | ldVxMem (x : Reg)
  /-- A word of groups 8, E, F that no other row matches: a decode gap (30_encoding.md R100, 40_execution_cycle.md R133). -/
  | gap (w : Word)
  deriving DecidableEq, Repr

/-- The row's mnemonic, as spec/opcode_table.json spells it. -/
def Instr.mnemonic : Instr → String
  | .cls _ => "CLS"
  | .ret _ => "RET"
  | .sys _ => "SYS_nnn"
  | .jp _ => "JP_nnn"
  | .call _ => "CALL_nnn"
  | .seImm _ _ => "SE_Vx__kk"
  | .sneImm _ _ => "SNE_Vx__kk"
  | .seReg _ _ _ => "SE_Vx__Vy"
  | .ldImm _ _ => "LD_Vx__kk"
  | .addImm _ _ => "ADD_Vx__kk"
  | .ldReg _ _ => "LD_Vx__Vy"
  | .orReg _ _ => "OR_Vx__Vy"
  | .andReg _ _ => "AND_Vx__Vy"
  | .xorReg _ _ => "XOR_Vx__Vy"
  | .addReg _ _ => "ADD_Vx__Vy"
  | .subReg _ _ => "SUB_Vx__Vy"
  | .shr _ _ => "SHR_Vx"
  | .subnReg _ _ => "SUBN_Vx__Vy"
  | .shl _ _ => "SHL_Vx"
  | .sneReg _ _ _ => "SNE_Vx__Vy"
  | .ldI _ => "LD_I__nnn"
  | .jpV0 _ => "JP_V0__nnn"
  | .rnd _ _ => "RND_Vx__kk"
  | .drw _ _ _ => "DRW_Vx__Vy__n"
  | .skp _ => "SKP_Vx"
  | .sknp _ => "SKNP_Vx"
  | .ldVxDt _ => "LD_Vx__DT"
  | .ldVxK _ => "LD_Vx__K"
  | .ldDtVx _ => "LD_DT__Vx"
  | .ldStVx _ => "LD_ST__Vx"
  | .addI _ => "ADD_I__Vx"
  | .ldF _ => "LD_F__Vx"
  | .ldB _ => "LD_B__Vx"
  | .ldMemVx _ => "LD__I___Vx"
  | .ldVxMem _ => "LD_Vx___I"
  | .gap _ => "GAP"

end Sys2Proof
end

