-- ==== Sys2Proof/WellFormed.lean ====
section
/-! DEFINITION. Which terms of `Instr` are instructions of the machine. Only two constructors admit an ill-formed term: `sys`
with the low byte of `CLS` or `RET` (30_encoding.md R94, R102), and `gap` with a word that some other row matches (R100).
Every other field is as wide as its place in the word, so it has no ill-formed value. -/

namespace Sys2Proof

/-- Low byte of a group-0 word that is `SYS`: neither that of `CLS` nor that of `RET` (30_encoding.md R94). -/
def isSysAddr (nnn : BitVec 12) : Bool :=
  nnn.extractLsb' 0 8 != 0xE0#8 && nnn.extractLsb' 0 8 != 0xEE#8

/-- The gap words of groups 8, E and F (30_encoding.md R100). -/
def isGapWord (w : Word) : Bool :=
  let n := (w.extractLsb' 0 4).toNat
  let kk := (w.extractLsb' 0 8).toNat
  match (w.extractLsb' 12 4).toNat with
  | 0x8 => [0x8, 0x9, 0xA, 0xB, 0xC, 0xD, 0xF].contains n
  | 0xE => !([0x9E, 0xA1].contains kk)
  | 0xF => !([0x07, 0x0A, 0x15, 0x18, 0x1E, 0x29, 0x33, 0x55, 0x65].contains kk)
  | _ => false

/-- The instruction is one that some word of the machine decodes to. -/
def WellFormed : Instr → Bool
  | .cls _ | .ret _ => true
  | .sys nnn => isSysAddr nnn
  | .jp _ | .call _ | .seImm _ _ | .sneImm _ _ | .seReg _ _ _ => true
  | .ldImm _ _ | .addImm _ _ => true
  | .ldReg _ _ | .orReg _ _ | .andReg _ _ | .xorReg _ _ | .addReg _ _ | .subReg _ _ => true
  | .shr _ _ | .subnReg _ _ | .shl _ _ | .sneReg _ _ _ => true
  | .ldI _ | .jpV0 _ | .rnd _ _ | .drw _ _ _ => true
  | .skp _ | .sknp _ | .ldVxDt _ | .ldVxK _ | .ldDtVx _ | .ldStVx _ => true
  | .addI _ | .ldF _ | .ldB _ | .ldMemVx _ | .ldVxMem _ => true
  | .gap w => isGapWord w

end Sys2Proof
end

