-- ==== Sys2Proof/Decode.lean ====
section
/-! DEFINITION. The decode tree (30_encoding.md R93 to R98), total on 16-bit words (R101); decoding from bytes, which rejects
only a truncated word, by name; the encoder, written from the patterns of R107; and the opcode table of R107 as rows. -/

namespace Sys2Proof

/-! ## Byte order (20_memory.md R62) -/

/-- The big-endian pair of bytes `hi ++ lo` (20_memory.md R62). -/
def Word.ofBytes (hi lo : Byte) : Word := hi ++ lo

/-- The byte of a word that lies at the lower address (20_memory.md R62). -/
def Word.high (w : Word) : Byte := w.extractLsb' 8 8

/-- The byte of a word that lies at the higher address (20_memory.md R62). -/
def Word.low (w : Word) : Byte := w.extractLsb' 0 8

/-! ## Fields of an opcode (30_encoding.md R91) -/

/-- `w[15:12]`, the group selector. -/
def opField (w : Word) : Nibble := w.extractLsb' 12 4

/-- `w[11:8]` as raw bits. -/
def xBits (w : Word) : Nibble := w.extractLsb' 8 4

/-- `w[7:4]` as raw bits. -/
def yBits (w : Word) : Nibble := w.extractLsb' 4 4

/-- `w[3:0]`. -/
def nField (w : Word) : Nibble := w.extractLsb' 0 4

/-- `w[7:0]`. -/
def kkField (w : Word) : Byte := w.extractLsb' 0 8

/-- `w[11:0]`. -/
def nnnField (w : Word) : BitVec 12 := w.extractLsb' 0 12

/-- A 4-bit field read as a register number: always in `0..15` (10_state.md R20). -/
def regOfBits (b : Nibble) : Reg := ⟨b.toNat, b.isLt⟩

/-- The register named by the field `x`. -/
def xField (w : Word) : Reg := regOfBits (xBits w)

/-- The register named by the field `y`. -/
def yField (w : Word) : Reg := regOfBits (yBits w)

/-! ## The decode tree -/

/-- Group `0x0` dispatches on the low byte; bits 11:8 are not examined (30_encoding.md R94, decision D6). -/
def decodeGroup0 (w : Word) : Instr :=
  match (kkField w).toNat with
  | 0xE0 => .cls (xBits w)
  | 0xEE => .ret (xBits w)
  | _ => .sys (nnnField w)

/-- Group `0x8` dispatches on the low nibble (30_encoding.md R95). -/
def decodeGroup8 (w : Word) : Instr :=
  match (nField w).toNat with
  | 0x0 => .ldReg (xField w) (yField w)
  | 0x1 => .orReg (xField w) (yField w)
  | 0x2 => .andReg (xField w) (yField w)
  | 0x3 => .xorReg (xField w) (yField w)
  | 0x4 => .addReg (xField w) (yField w)
  | 0x5 => .subReg (xField w) (yField w)
  | 0x6 => .shr (xField w) (yField w)
  | 0x7 => .subnReg (xField w) (yField w)
  | 0xE => .shl (xField w) (yField w)
  | _ => .gap w

/-- Group `0xE` dispatches on the low byte (30_encoding.md R96, decision D6). -/
def decodeGroupE (w : Word) : Instr :=
  match (kkField w).toNat with
  | 0x9E => .skp (xField w)
  | 0xA1 => .sknp (xField w)
  | _ => .gap w

/-- Group `0xF` dispatches on the low byte (30_encoding.md R97). -/
def decodeGroupF (w : Word) : Instr :=
  match (kkField w).toNat with
  | 0x07 => .ldVxDt (xField w)
  | 0x0A => .ldVxK (xField w)
  | 0x15 => .ldDtVx (xField w)
  | 0x18 => .ldStVx (xField w)
  | 0x1E => .addI (xField w)
  | 0x29 => .ldF (xField w)
  | 0x33 => .ldB (xField w)
  | 0x55 => .ldMemVx (xField w)
  | 0x65 => .ldVxMem (xField w)
  | _ => .gap w

/-- Level 1 of the tree: the high nibble selects the group (30_encoding.md R93); groups 5 and 9 do not examine their low
nibble (R98). Total: every word is some instruction or a gap (R101). The last arm is group `0xF`. -/
def decode (w : Word) : Instr :=
  match (opField w).toNat with
  | 0x0 => decodeGroup0 w
  | 0x1 => .jp (nnnField w)
  | 0x2 => .call (nnnField w)
  | 0x3 => .seImm (xField w) (kkField w)
  | 0x4 => .sneImm (xField w) (kkField w)
  | 0x5 => .seReg (xField w) (yField w) (nField w)
  | 0x6 => .ldImm (xField w) (kkField w)
  | 0x7 => .addImm (xField w) (kkField w)
  | 0x8 => decodeGroup8 w
  | 0x9 => .sneReg (xField w) (yField w) (nField w)
  | 0xA => .ldI (nnnField w)
  | 0xB => .jpV0 (nnnField w)
  | 0xC => .rnd (xField w) (kkField w)
  | 0xD => .drw (xField w) (yField w) (nField w)
  | 0xE => decodeGroupE w
  | _ => decodeGroupF w

/-! ## Decoding from bytes -/

/-- Why bytes are no instruction. A whole word always decodes (30_encoding.md R101). -/
inductive DecodeError where
  /-- Fewer than the two bytes of a word are there (30_encoding.md R90). -/
  | truncated
  deriving DecidableEq, Repr

/-- Decodes the first word of a list of bytes, high byte first (20_memory.md R62), and answers what follows it. -/
def decodeBytes : List Byte → Except DecodeError (Instr × List Byte)
  | hi :: lo :: rest => .ok (decode (Word.ofBytes hi lo), rest)
  | [_] => .error .truncated
  | [] => .error .truncated

/-! ## The encoder (30_encoding.md R92, R107) -/

/-- A register number as the four bits of its field. -/
def regBits (r : Reg) : Nibble := BitVec.ofNat 4 r.val

/-- Format `NNN`: `o nnn`. -/
def encodeNNN (o : Nibble) (nnn : BitVec 12) : Word := o ++ nnn

/-- Format `XKK`, and format `X` with a sub-code in place of `kk`: `o x kk`. -/
def encodeXKK (o : Nibble) (x : Reg) (kk : Byte) : Word := o ++ (regBits x ++ kk)

/-- Formats `XY` and `XYN`: `o x y n`. -/
def encodeXYN (o : Nibble) (x y : Reg) (n : Nibble) : Word := o ++ (regBits x ++ (regBits y ++ n))

/-- Format `Z`: group 0, bits 11:8 ignored, a sub-code. -/
def encodeZ (ign : Nibble) (ss : Byte) : Word := 0x0#4 ++ (ign ++ ss)

/-- The word of an instruction (30_encoding.md R107). -/
def encode : Instr → Word
  | .cls ign => encodeZ ign 0xE0
  | .ret ign => encodeZ ign 0xEE
  | .sys nnn => encodeNNN 0x0 nnn
  | .jp nnn => encodeNNN 0x1 nnn
  | .call nnn => encodeNNN 0x2 nnn
  | .seImm x kk => encodeXKK 0x3 x kk
  | .sneImm x kk => encodeXKK 0x4 x kk
  | .seReg x y ign => encodeXYN 0x5 x y ign
  | .ldImm x kk => encodeXKK 0x6 x kk
  | .addImm x kk => encodeXKK 0x7 x kk
  | .ldReg x y => encodeXYN 0x8 x y 0x0
  | .orReg x y => encodeXYN 0x8 x y 0x1
  | .andReg x y => encodeXYN 0x8 x y 0x2
  | .xorReg x y => encodeXYN 0x8 x y 0x3
  | .addReg x y => encodeXYN 0x8 x y 0x4
  | .subReg x y => encodeXYN 0x8 x y 0x5
  | .shr x y => encodeXYN 0x8 x y 0x6
  | .subnReg x y => encodeXYN 0x8 x y 0x7
  | .shl x y => encodeXYN 0x8 x y 0xE
  | .sneReg x y ign => encodeXYN 0x9 x y ign
  | .ldI nnn => encodeNNN 0xA nnn
  | .jpV0 nnn => encodeNNN 0xB nnn
  | .rnd x kk => encodeXKK 0xC x kk
  | .drw x y n => encodeXYN 0xD x y n
  | .skp x => encodeXKK 0xE x 0x9E
  | .sknp x => encodeXKK 0xE x 0xA1
  | .ldVxDt x => encodeXKK 0xF x 0x07
  | .ldVxK x => encodeXKK 0xF x 0x0A
  | .ldDtVx x => encodeXKK 0xF x 0x15
  | .ldStVx x => encodeXKK 0xF x 0x18
  | .addI x => encodeXKK 0xF x 0x1E
  | .ldF x => encodeXKK 0xF x 0x29
  | .ldB x => encodeXKK 0xF x 0x33
  | .ldMemVx x => encodeXKK 0xF x 0x55
  | .ldVxMem x => encodeXKK 0xF x 0x65
  | .gap w => w

/-- An instruction's two bytes in memory order, high byte first (20_memory.md R62). -/
def encodeBytes (i : Instr) : List Byte := [(encode i).high, (encode i).low]

/-! ## The opcode table (30_encoding.md R107) -/

/-- A row: a word `w` selects it when `w and mask = value`. -/
structure OpcodeRow where
  /-- The row's place in the table, which is its priority. -/
  number : Nat
  /-- The bits the decode tree examines. -/
  mask : Word
  /-- Their values. -/
  value : Word
  deriving DecidableEq, Repr

/-- Rows 1 to 10: `CLS`, `RET`, `SYS`, `JP`, `CALL`, `SE`, `SNE`, `SE`, `LD`, `ADD`. -/
def opcodeRowsA : List OpcodeRow :=
  [⟨1, 0xF0FF, 0x00E0⟩, ⟨2, 0xF0FF, 0x00EE⟩, ⟨3, 0xF000, 0x0000⟩, ⟨4, 0xF000, 0x1000⟩, ⟨5, 0xF000, 0x2000⟩,
   ⟨6, 0xF000, 0x3000⟩, ⟨7, 0xF000, 0x4000⟩, ⟨8, 0xF000, 0x5000⟩, ⟨9, 0xF000, 0x6000⟩, ⟨10, 0xF000, 0x7000⟩]

/-- Rows 11 to 24: the nine operations of group 8, `SNE`, `LD I`, `JP V0`, `RND`, `DRW`. -/
def opcodeRowsB : List OpcodeRow :=
  [⟨11, 0xF00F, 0x8000⟩, ⟨12, 0xF00F, 0x8001⟩, ⟨13, 0xF00F, 0x8002⟩, ⟨14, 0xF00F, 0x8003⟩, ⟨15, 0xF00F, 0x8004⟩,
   ⟨16, 0xF00F, 0x8005⟩, ⟨17, 0xF00F, 0x8006⟩, ⟨18, 0xF00F, 0x8007⟩, ⟨19, 0xF00F, 0x800E⟩, ⟨20, 0xF000, 0x9000⟩,
   ⟨21, 0xF000, 0xA000⟩, ⟨22, 0xF000, 0xB000⟩, ⟨23, 0xF000, 0xC000⟩, ⟨24, 0xF000, 0xD000⟩]

/-- Rows 25 to 35, groups E and F, and row 36, the catch-all `GAP`. -/
def opcodeRowsC : List OpcodeRow :=
  [⟨25, 0xF0FF, 0xE09E⟩, ⟨26, 0xF0FF, 0xE0A1⟩, ⟨27, 0xF0FF, 0xF007⟩, ⟨28, 0xF0FF, 0xF00A⟩, ⟨29, 0xF0FF, 0xF015⟩,
   ⟨30, 0xF0FF, 0xF018⟩, ⟨31, 0xF0FF, 0xF01E⟩, ⟨32, 0xF0FF, 0xF029⟩, ⟨33, 0xF0FF, 0xF033⟩, ⟨34, 0xF0FF, 0xF055⟩,
   ⟨35, 0xF0FF, 0xF065⟩, ⟨36, 0x0000, 0x0000⟩]

/-- The rows in priority order: the first that matches is the word's row. -/
def opcodeTable : List OpcodeRow := opcodeRowsA ++ opcodeRowsB ++ opcodeRowsC

/-- The number of the first row of the table that a word matches; the last row matches every word. -/
def firstRow (w : Word) : Nat :=
  match opcodeTable.find? (fun r => w &&& r.mask == r.value) with
  | some r => r.number
  | none => 0

/-- The number of the row an instruction stands for. -/
def Instr.rowNumber : Instr → Nat
  | .cls _ => 1
  | .ret _ => 2
  | .sys _ => 3
  | .jp _ => 4
  | .call _ => 5
  | .seImm _ _ => 6
  | .sneImm _ _ => 7
  | .seReg _ _ _ => 8
  | .ldImm _ _ => 9
  | .addImm _ _ => 10
  | .ldReg _ _ => 11
  | .orReg _ _ => 12
  | .andReg _ _ => 13
  | .xorReg _ _ => 14
  | .addReg _ _ => 15
  | .subReg _ _ => 16
  | .shr _ _ => 17
  | .subnReg _ _ => 18
  | .shl _ _ => 19
  | .sneReg _ _ _ => 20
  | .ldI _ => 21
  | .jpV0 _ => 22
  | .rnd _ _ => 23
  | .drw _ _ _ => 24
  | .skp _ => 25
  | .sknp _ => 26
  | .ldVxDt _ => 27
  | .ldVxK _ => 28
  | .ldDtVx _ => 29
  | .ldStVx _ => 30
  | .addI _ => 31
  | .ldF _ => 32
  | .ldB _ => 33
  | .ldMemVx _ => 34
  | .ldVxMem _ => 35
  | .gap _ => 36

/-- The row an instruction stands for. -/
def Instr.row (i : Instr) : Option OpcodeRow := opcodeTable.find? (fun r => r.number == i.rowNumber)

/-! ## Words of the opcode table, as the host numbers them -/

/-- The word whose low `nbits` bits are those of `w` and whose other bits are 0; bit 0 of the table is bit 0 of the one word
an instruction has (30_encoding.md R90, R91). -/
def tableWord (nbits w : Nat) : Word := BitVec.ofNat 16 (w % 2 ^ nbits)

/-- What the decoder reads from the bytes of that word as memory holds them. -/
def decodeTableWord (nbits w : Nat) : Option Instr :=
  match decodeBytes [(tableWord nbits w).high, (tableWord nbits w).low] with
  | .ok (i, _) => some i
  | .error _ => none

end Sys2Proof
end

