-- ==== Sys2Proof/Machine/Font.lean ====
section
/-! DEFINITION. The built-in font (10_state.md R31): 16 glyphs of 5 bytes. Glyph 0 is the source's; glyphs 1 to F are the
customary font as the spec prints it (PRESUMED, log entry 8). -/

namespace Sys2Proof.Machine

/-- Glyph 0, the one the source gives (R31). -/
def glyph0 : List Byte := [0xF0, 0x90, 0x90, 0x90, 0xF0]

/-- Glyphs 1 to F: the parameter `FONT` (R31; log entry 8). -/
def glyphs1toF : List (List Byte) :=
  [[0x20, 0x60, 0x20, 0x20, 0x70], [0xF0, 0x10, 0xF0, 0x80, 0xF0], [0xF0, 0x10, 0xF0, 0x10, 0xF0],
   [0x90, 0x90, 0xF0, 0x10, 0x10], [0xF0, 0x80, 0xF0, 0x10, 0xF0], [0xF0, 0x80, 0xF0, 0x90, 0xF0],
   [0xF0, 0x10, 0x20, 0x40, 0x40], [0xF0, 0x90, 0xF0, 0x90, 0xF0], [0xF0, 0x90, 0xF0, 0x10, 0xF0],
   [0xF0, 0x90, 0xF0, 0x90, 0x90], [0xE0, 0x90, 0xE0, 0x90, 0xE0], [0xF0, 0x80, 0x80, 0x80, 0xF0],
   [0xE0, 0x90, 0x90, 0x90, 0xE0], [0xF0, 0x80, 0xF0, 0x80, 0xF0], [0xF0, 0x80, 0xF0, 0x80, 0x80]]

/-- The 80 bytes of the font, glyph `d` at `5*d` (R31). -/
def fontBytes : List Byte := glyph0 ++ glyphs1toF.flatten

end Sys2Proof.Machine
end

