-- ==== Sys2Proof/Config.lean ====
section
/-! DEFINITION. What an implementation fixes (00_scope.md R5) and the free values of a step (40_execution_cycle.md R136). -/

namespace Sys2Proof

/-- Size of the one memory, in bytes: addresses `0x000`..`0xFFF` (20_memory.md R60). -/
def Config.memBytes : Nat := 0x1000

/-- Where a program image is loaded, and the value of `pc` after reset (70_reset_and_hazards.md R301, R302). -/
def Config.loadAddress : Nat := 0x200

/-- The longest image `Reset` accepts: the bytes from the load address to the top of memory
(70_reset_and_hazards.md R302, decision D19). -/
def Config.maxImage : Nat := 3584

/-- The parameter `RND_DRAW` (00_scope.md R5): the `k`-th random byte, a free value. No body: nothing can be proved of
its values, so a claim about `RND` holds for every draw (42_alu.md R182, decision D11; log entry 4). -/
opaque Config.rndDraw : Nat → Byte

/-- The parameter `KEY_PICK` (00_scope.md R5): a free number that selects among the pressed keys at the `k`-th draw
(44_timers_keys.md R223, decision D10; log entry 5). No body. -/
opaque Config.keyPick : Nat → Nat

end Sys2Proof
end

