-- ==== Sys2Proof/Machine/State.lean ====
section
/-! DEFINITION. The machine state (10_state.md R20 to R36) as plain data, the reasons a step or an event can stop, and the
state after reset. -/

namespace Sys2Proof.Machine

/-- The five synchronous faults (60_exceptions.md R260). The spec describes what taking one does (R263): it is LATCHED in the
state, which is a next state, so no step of this model ends in `Outcome.fault`. Each is SAFE: the core stops making progress
where the original program would have done something unknown (92_eei_decisions.md D2, D3, D5). -/
inductive Fault where
  /-- Raised by every step, before decode, when `pc > 0xFFE` (R260). Safe. -/
  | fetchOutOfRange
  /-- Raised by `DRW` (`n > 0`), `LD B, Vx`, `LD [I], Vx`, `LD Vx, [I]` when the range passes `0xFFF` (R260). Safe. -/
  | dataAddressOutOfRange
  /-- Raised by `CALL` at `sp = 16` (R260). Safe. -/
  | stackOverflow
  /-- Raised by `RET` at `sp = 0` (R260). Safe. -/
  | stackUnderflow
  /-- Raised by `SKP` and `SKNP` when `V[x] > 15` (R260, decision D5). Safe. -/
  | keyIndexOutOfRange
  deriving DecidableEq, Repr

/-- What this model refuses. No step refuses anything: every word of the machine has its meaning. -/
inductive Refusal where
  /-- An instruction with no meaning yet, by its mnemonic; no arm of `exec` answers it. Safe. -/
  | notModelled (mnemonic : String)
  /-- `Reset` with an image of more than 3584 bytes, which "is refused (it is not an event of the model)"
  (70_reset_and_hazards.md R302, decision D19); raised by `resetWith` only, never by a step. Safe. -/
  | imageTooLong (length : Nat)
  deriving DecidableEq, Repr

/-- The content of the fault latch: `(cause, at, info)` (10_state.md R33, 60_exceptions.md R261). -/
structure FaultRecord where
  /-- Which fault. -/
  cause : Fault
  /-- The spec's `at`: the address of the faulting instruction. -/
  pcAt : Word
  /-- The offending value, a natural number (R261). -/
  info : Nat
  deriving DecidableEq, Repr

/-- The output event `diag(a, w)` of a decode gap (40_execution_cycle.md R133). -/
structure Diag where
  /-- The address the gap word was fetched from. -/
  pcAt : Word
  /-- The gap word. -/
  word : Word
  deriving DecidableEq, Repr

/-- Memory: the bytes that differ from their reset contents, at strictly rising addresses (`Memory.wf`). -/
abbrev Memory := List Host.Cell

/-- The frame buffer, one bit a cell (10_state.md R28, decision D13): 32 rows of 64 cells, the cell of column `cx` being bit
`cx` of its row (log entry 7). -/
abbrev FrameBuffer := Vector (BitVec 64) 32

/-- Everything the spec gives the machine (10_state.md), and two fields of the model's own, `draws` and `diags`. -/
structure State where
  /-- The general registers `V[0]`..`V[15]` (R20). -/
  v : Vector Byte 16
  /-- The index register `I` (R22). -/
  i : Word
  /-- The program counter (R23). -/
  pc : Word
  /-- The entries `stack[0]`..`stack[15]` (R24). -/
  stack : Vector Word 16
  /-- The depth counter, `0 <= sp <= 16` (R24). -/
  sp : Fin 17
  /-- The delay timer `DT` (R25). -/
  dt : Byte
  /-- The sound timer `ST` (R26). -/
  st : Byte
  /-- The key latch `keys[0]`..`keys[15]`, true = pressed (R27). -/
  keys : Vector Bool 16
  /-- The frame buffer `fb` (R28). -/
  fb : FrameBuffer
  /-- The dirty flag (R29). -/
  dirty : Bool
  /-- The 4096 bytes of memory (R30). -/
  mem : Memory
  /-- The fault latch (R33). -/
  fault : Option FaultRecord
  /-- The model's own: how many free values have been used (log entries 4 and 5). -/
  draws : Nat
  /-- The model's own: the diagnostics emitted so far, oldest first; output, never read (R133; log entry 6). -/
  diags : List Diag
  deriving DecidableEq, Repr

/-- The state after `Reset` with an empty image (10_state.md R35): every field zeroed, the font in place (it is what
unlisted memory reads as), `pc` at `0x200`. `draws` and `diags` are the model's choice (log entries 4 and 6). -/
def State.reset : State where
  v := Vector.replicate 16 0
  i := 0
  pc := BitVec.ofNat 16 Config.loadAddress
  stack := Vector.replicate 16 0
  sp := 0
  dt := 0
  st := 0
  keys := Vector.replicate 16 false
  fb := Vector.replicate 32 0
  dirty := false
  mem := []
  fault := none
  draws := 0
  diags := []

end Sys2Proof.Machine
end

