-- ==== Sys2Proof/Machine/Ops.lean ====
section
/-! DEFINITION. The named operations over memory, registers, stack, keys, frame buffer and fault latch that the meanings
share, and the fetch. A meaning runs on the DISPATCHED state: `pc` already holds the fetched address plus 2
(40_execution_cycle.md R131). -/

namespace Sys2Proof.Machine

/-- What a step or an event answers. -/
abbrev Result := Host.Outcome State Fault Refusal

/-! ## Memory (20_memory.md) -/

/-- What an address that memory does not list reads as: its contents after reset with no image, the font at `0x000`..`0x04F`
and zero elsewhere (10_state.md R35). -/
def Memory.resetByte (a : Nat) : Byte := fontBytes.getD a 0

/-- The byte at address `a` (20_memory.md R66). -/
def Memory.read : Memory → Nat → Byte
  | [], a => Memory.resetByte a
  | c :: m, a => if c.1 = a then c.2 else Memory.read m a

/-- Puts one entry in its place among entries at rising addresses. -/
def Memory.insertCell (c : Host.Cell) : Memory → Memory
  | [] => [c]
  | d :: m => if c.1 < d.1 then c :: d :: m else d :: Memory.insertCell c m

/-- Writes the byte `b` at address `a` (20_memory.md R66); an entry that would repeat the reset contents is not kept. -/
def Memory.write (m : Memory) (a : Nat) (b : Byte) : Memory :=
  let rest := m.filter (fun c => c.1 != a)
  if b = Memory.resetByte a then rest else Memory.insertCell (a, b) rest

/-- The canonical form: addresses strictly rising and inside `0x000`..`0xFFF`, no entry that repeats the reset contents. -/
abbrev Memory.wf (m : Memory) : Prop :=
  m.Pairwise (fun c d => c.1 < d.1) ∧ ∀ c ∈ m, c.1 < Config.memBytes ∧ c.2 ≠ Memory.resetByte c.1

/-- Writes bytes at ascending addresses from `a` (20_memory.md R63). -/
def Memory.storeBytes (m : Memory) (a : Nat) : List Byte → Memory
  | [] => m
  | b :: bs => Memory.storeBytes (Memory.write m a b) (a + 1) bs

/-- Reads `n` bytes at ascending addresses from `a` (20_memory.md R63). -/
def Memory.loadBytes (m : Memory) (a n : Nat) : List Byte := (List.range n).map (fun k => Memory.read m (a + k))

/-- The opcode at address `a`, big-endian: `mem[a] ++ mem[a+1]` (20_memory.md R62). -/
def Memory.fetchWord (m : Memory) (a : Nat) : Word := Word.ofBytes (Memory.read m a) (Memory.read m (a + 1))

/-! ## Registers (10_state.md R20) -/

/-- Reads `V[r]`. -/
def State.getV (s : State) (r : Reg) : Byte := s.v[r.val]

/-- Writes `V[r]`; no register is hardwired (R20). -/
def State.setV (s : State) (r : Reg) (b : Byte) : State := { s with v := s.v.set r.val b }

/-- Writes bytes to registers at ascending numbers from `j`. -/
def writeRegs (v : Vector Byte 16) (j : Nat) : List Byte → Vector Byte 16
  | [] => v
  | b :: bs => writeRegs (v.setIfInBounds j b) (j + 1) bs

/-- The registers `V[0]`..`V[x]`, in order. -/
def State.regsUpTo (s : State) (x : Reg) : List Byte := s.v.toList.take (x.val + 1)

/-! ## The program counter -/

/-- The address `a` the running instruction was fetched from: `pc` was advanced by 2 (40_execution_cycle.md R130, R131;
log entry 9). -/
def State.instrAddr (s : State) : Word := s.pc - 2

/-- The advance after the fetch (40_execution_cycle.md R131). -/
def State.advance (s : State) : State := { s with pc := s.pc + 2 }

/-- Answers the state with `pc` overwritten (41_control_flow.md R158). -/
def jumpTo (target : Word) (s : State) : Result := .next { s with pc := target }

/-- Skips one instruction when the condition holds: `pc <- pc + 2` (41_control_flow.md R158). -/
def skipIf (cond : Bool) (s : State) : Result := .next (if cond then { s with pc := s.pc + 2 } else s)

/-! ## Taking a fault (60_exceptions.md R263) -/

/-- The cause code of a fault; 0 stands for no fault (60_exceptions.md R261, decision D22). -/
def Fault.code : Fault → Nat
  | .fetchOutOfRange => 1
  | .dataAddressOutOfRange => 2
  | .stackOverflow => 3
  | .stackUnderflow => 4
  | .keyIndexOutOfRange => 5

/-- The code the fault latch holds (60_exceptions.md R261). -/
def State.causeCode (s : State) : Nat :=
  match s.fault with
  | none => 0
  | some r => r.cause.code

/-- Latches a fault of the instruction at `a`: `pc` is `a` again and `fault` is the record; nothing else changes. -/
def latchFault (f : Fault) (a : Word) (info : Nat) (s : State) : State :=
  { s with pc := a, fault := some { cause := f, pcAt := a, info := info } }

/-- `raise F(info)` from a dispatched instruction: every write of the step is undone, the advance of `pc` included, and the
fault is latched (R263, 40_execution_cycle.md R135). Every meaning raises before its first write (R266), so undoing the step
is setting `pc` back to the instruction's address. There is no return from a fault (R265). -/
def raise (f : Fault) (info : Nat) (s : State) : Result := .next (latchFault f s.instrAddr info s)

/-- The fetch check's fault: `at` and `info` are both the offending `pc` (R261). -/
def raiseFetch (s : State) : Result := .next (latchFault .fetchOutOfRange s.pc s.pc.toNat s)

/-! ## Fetch (40_execution_cycle.md R130) -/

/-- How a step begins. -/
inductive Fetched where
  /-- The fault latch is set: the step does nothing (R138). -/
  | stuck
  /-- `pc > 0xFFE`: the two bytes are not both inside memory. -/
  | outOfRange
  /-- The opcode at `pc`. -/
  | word (w : Word)
  deriving DecidableEq, Repr

/-- The tests and the read that begin a step, in the order of R130. -/
def fetch (s : State) : Fetched :=
  if s.fault ≠ none then .stuck
  else if s.pc.toNat > 0xFFE then .outOfRange
  else .word (Memory.fetchWord s.mem s.pc.toNat)

/-! ## The call stack (10_state.md R24) -/

/-- Pushes `pc` and jumps; a full stack raises (41_control_flow.md R152). -/
def pushAndJump (target : Word) (s : State) : Result :=
  if h : s.sp.val < 16 then
    .next { s with
      stack := s.stack.set s.sp.val s.pc
      sp := ⟨s.sp.val + 1, Nat.succ_lt_succ h⟩
      pc := target }
  else raise .stackOverflow 16 s

/-- Pops into `pc`; an empty stack raises. The popped entry stays where it was (41_control_flow.md R150). -/
def popToPc (s : State) : Result :=
  if h : s.sp.val = 0 then raise .stackUnderflow 0 s
  else
    .next { s with
      sp := ⟨s.sp.val - 1, Nat.lt_of_le_of_lt (Nat.sub_le _ _) s.sp.isLt⟩
      pc := s.stack[s.sp.val - 1]'(Nat.lt_of_lt_of_le (Nat.sub_one_lt h) (Nat.le_of_lt_succ s.sp.isLt)) }

/-! ## Keys (60_exceptions.md R275) -/

/-- The pressed keys, in rising order. -/
def pressedKeys (keys : Vector Bool 16) : List Reg := (List.finRange 16).filter (fun k => keys[k.val])

/-- A pressed key, or none: `d` selects among them when there are several (44_timers_keys.md R223, decision D10). -/
def pickKey (d : Nat) : List Reg → Option Reg
  | [] => none
  | [k] => some k
  | ks => ks[d % ks.length]?

/-! ## The frame buffer (45_display.md R242) -/

/-- The cell `fb[p]`, row-major: column `p mod 64` of row `p div 64`; a position past 2047 is no cell. -/
def FrameBuffer.cell (fb : FrameBuffer) (p : Nat) : Bool := (fb[p / 64]?.getD 0).getLsbD (p % 64)

/-- Inverts the cell `fb[p]`. -/
def FrameBuffer.flip (fb : FrameBuffer) (p : Nat) : FrameBuffer :=
  fb.setIfInBounds (p / 64) (fb[p / 64]?.getD 0 ^^^ (1#64 <<< (p % 64)))

/-- The cleared frame buffer. -/
def FrameBuffer.blank : FrameBuffer := Vector.replicate 32 0

/-- The position of the cell that offset `(c, r)` of a sprite at `(vx, vy)` falls on: each coordinate wraps (R242). -/
def cellAt (vx vy c r : Nat) : Nat := (vy + r) % 32 * 64 + (vx + c) % 64

/-- What `DRW` accumulates (45_display.md R241). -/
structure Blit where
  fb : FrameBuffer
  collision : Bool
  changed : Bool
  deriving DecidableEq, Repr

/-- One sprite bit: a 0 leaves its cell alone, a 1 inverts it and reports a collision if it was on (R241). -/
def blitBit (p : Nat) (bit : Bool) (b : Blit) : Blit :=
  if bit then
    { fb := FrameBuffer.flip b.fb p, collision := b.collision || FrameBuffer.cell b.fb p, changed := true }
  else b

/-- One sprite row, bit 7 at column offset 0 (R241). -/
def blitRow (vx vy r : Nat) (row : Byte) (b : Blit) : Blit :=
  (List.range 8).foldl (fun acc c => blitBit (cellAt vx vy c r) (row.getLsbD (7 - c)) acc) b

/-- The sprite's rows from row `r` on, top to bottom (R241). -/
def blitRows (vx vy r : Nat) : List Byte → Blit → Blit
  | [], b => b
  | row :: rows, b => blitRows vx vy (r + 1) rows (blitRow vx vy r row b)

/-- Draws a sprite at `(vx, vy)` on a frame buffer (R241). -/
def blit (vx vy : Nat) (sprite : List Byte) (fb : FrameBuffer) : Blit :=
  blitRows vx vy 0 sprite { fb := fb, collision := false, changed := false }

end Sys2Proof.Machine
end

