-- ==== Sys2Proof/Machine/Flags.lean ====
section
/-! DEFINITION. The results and flags of the ALU (42_alu.md R183): exact on natural numbers, then narrowed to 8 bits; and the
write order flag first, result second (R170). The flag is an ordinary write to `V[15]` (10_state.md R21). -/

namespace Sys2Proof.Machine

/-- A flag as the byte 0 or 1. -/
def flagByte (b : Bool) : Byte := if b then 1 else 0

/-- `(a + b) mod 256`. -/
def sum8 (a b : Byte) : Byte := BitVec.ofNat 8 (a.toNat + b.toNat)

/-- The carry of an addition: 1 iff `a + b > 255`. -/
def carryFlag (a b : Byte) : Byte := flagByte (decide (a.toNat + b.toNat > 255))

/-- `(a - b) mod 256`: `a - b` if `a >= b`, else `a - b + 256`. -/
def diff8 (a b : Byte) : Byte := BitVec.ofNat 8 (a.toNat + 256 - b.toNat)

/-- The flag of `a - b`: 1 iff `a > b` strictly, so 0 at equality (90_conflicts.md C4). -/
def greaterFlag (a b : Byte) : Byte := flagByte (decide (a.toNat > b.toNat))

/-- Shift right by one: `a div 2`. -/
def shr8 (a : Byte) : Byte := BitVec.ofNat 8 (a.toNat / 2)

/-- The bit a right shift loses: `a mod 2`. -/
def lowBitFlag (a : Byte) : Byte := BitVec.ofNat 8 (a.toNat % 2)

/-- Shift left by one: `(2 * a) mod 256`. -/
def shl8 (a : Byte) : Byte := BitVec.ofNat 8 (2 * a.toNat)

/-- The bit a left shift loses: `a div 128`. -/
def highBitFlag (a : Byte) : Byte := BitVec.ofNat 8 (a.toNat / 128)

/-- Phases 3 and 4 of R170: write the flag to `V[15]`, then the result to `V[x]`; with `x = 15` the result stays. -/
def writeFlagged (x : Reg) (flag result : Byte) (s : State) : Result :=
  .next ((s.setV Reg.flag flag).setV x result)

/-- A register write with no flag. -/
def writeReg (x : Reg) (result : Byte) (s : State) : Result := .next (s.setV x result)

end Sys2Proof.Machine
end

