-- ==== Sys2Proof/Machine/Alu.lean ====
section
/-! DEFINITION. Register and ALU instructions (42_alu.md). Operands are read before anything is written, the flag is written
before the result (R170). -/

namespace Sys2Proof.Machine

/-- `LD Vx, kk` (R171). -/
def execLdImm (x : Reg) (kk : Byte) (s : State) : Result := writeReg x kk s

/-- `ADD Vx, kk`: no flag (R172). -/
def execAddImm (x : Reg) (kk : Byte) (s : State) : Result := writeReg x (sum8 (s.getV x) kk) s

/-- `LD Vx, Vy` (R173). -/
def execLdReg (x y : Reg) (s : State) : Result := writeReg x (s.getV y) s

/-- `OR Vx, Vy` (R174). -/
def execOr (x y : Reg) (s : State) : Result := writeReg x (s.getV x ||| s.getV y) s

/-- `AND Vx, Vy` (R175). -/
def execAnd (x y : Reg) (s : State) : Result := writeReg x (s.getV x &&& s.getV y) s

/-- `XOR Vx, Vy` (R176). -/
def execXor (x y : Reg) (s : State) : Result := writeReg x (s.getV x ^^^ s.getV y) s

/-- `ADD Vx, Vy`: `VF` is the carry (R177). -/
def execAddReg (x y : Reg) (s : State) : Result :=
  writeFlagged x (carryFlag (s.getV x) (s.getV y)) (sum8 (s.getV x) (s.getV y)) s

/-- `SUB Vx, Vy`: `Vx - Vy`, `VF` is 1 iff `Vx > Vy` (R178). -/
def execSub (x y : Reg) (s : State) : Result :=
  writeFlagged x (greaterFlag (s.getV x) (s.getV y)) (diff8 (s.getV x) (s.getV y)) s

/-- `SHR Vx`: `Vx` in place, `Vy` ignored (R179, decision D8). -/
def execShr (x : Reg) (s : State) : Result := writeFlagged x (lowBitFlag (s.getV x)) (shr8 (s.getV x)) s

/-- `SUBN Vx, Vy`: `Vy - Vx` into `Vx`, `VF` is 1 iff `Vy > Vx` (R180). -/
def execSubn (x y : Reg) (s : State) : Result :=
  writeFlagged x (greaterFlag (s.getV y) (s.getV x)) (diff8 (s.getV y) (s.getV x)) s

/-- `SHL Vx`: `Vx` in place, `Vy` ignored (R181, decision D8). -/
def execShl (x : Reg) (s : State) : Result := writeFlagged x (highBitFlag (s.getV x)) (shl8 (s.getV x)) s

/-- `RND` with the byte drawn: `V[x] <- draw and kk`, the draw used up (R182). -/
def rndWith (draw : Byte) (x : Reg) (kk : Byte) (s : State) : Result :=
  writeReg x (draw &&& kk) { s with draws := s.draws + 1 }

/-- `RND Vx, kk`: the byte is a free value (R182, decision D11; log entry 4). -/
def execRnd (x : Reg) (kk : Byte) (s : State) : Result := rndWith (Config.rndDraw s.draws) x kk s

end Sys2Proof.Machine
end

