-- ==== Sys2Proof/Machine/Operands.lean ====
section
/-! DEFINITION. The operand forms: immediates (30_encoding.md R99), the one data addressing mode `I + k` with its range check
(43_index_memory.md R203), a key named by a register (44_timers_keys.md R220), the decimal digits of a byte (R204). -/

namespace Sys2Proof.Machine

/-- A 12-bit immediate, zero-extended to 16 bits (30_encoding.md R99). -/
def zextAddr (nnn : BitVec 12) : Word := nnn.setWidth 16

/-- A byte, zero-extended to 16 bits. -/
def zextByte (b : Byte) : Word := b.setWidth 16

/-- The effective address `I + k`, a natural number, not truncated (20_memory.md R68). -/
def State.effAddr (s : State) (k : Nat) : Nat := s.i.toNat + k

/-- The whole range `I .. I + len - 1` lies inside memory; an empty range accesses nothing (43_index_memory.md R203,
45_display.md R241). -/
def State.rangeOk (s : State) (len : Nat) : Bool := len == 0 || decide (s.effAddr (len - 1) ≤ 0xFFF)

/-- The lowest out-of-range address of a range that starts at `I` and passes `0xFFF`: `max(I, 0x1000)` (20_memory.md R67). -/
def State.firstBad (s : State) : Nat := max s.i.toNat 0x1000

/-- Checks the whole range of `len` bytes from `I` before anything is accessed, then goes on (43_index_memory.md R203). -/
def withRange (len : Nat) (go : State → Result) (s : State) : Result :=
  if s.rangeOk len then go s else raise .dataAddressOutOfRange s.firstBad s

/-- The key whose number is the value of `V[x]`; a value above 15 raises and is not masked (44_timers_keys.md R220,
decision D5). -/
def withKey (x : Reg) (go : Bool → State → Result) (s : State) : Result :=
  if h : (s.getV x).toNat < 16 then go (s.keys[(s.getV x).toNat]'h) s
  else raise .keyIndexOutOfRange (s.getV x).toNat s

/-- Hundreds, tens and ones of a byte, each a byte 0..9 (43_index_memory.md R204). -/
def bcdDigits (b : Byte) : List Byte :=
  [BitVec.ofNat 8 (b.toNat / 100), BitVec.ofNat 8 (b.toNat / 10 % 10), BitVec.ofNat 8 (b.toNat % 10)]

/-- The address of the font glyph of a byte: `5 * V[x]`, not masked (43_index_memory.md R202). -/
def fontAddr (b : Byte) : Word := BitVec.ofNat 16 (5 * b.toNat)

end Sys2Proof.Machine
end

