-- ==== Sys2Proof/Machine/Control.lean ====
section
/-! DEFINITION. Control transfer: return, jump, call, skips, jump with offset (41_control_flow.md). In every meaning `pc`
already holds the fetched address plus 2 (40_execution_cycle.md R131). -/

namespace Sys2Proof.Machine

/-- `RET` (R150). -/
def execRet (s : State) : Result := popToPc s

/-- `JP nnn` (R151). -/
def execJp (nnn : BitVec 12) (s : State) : Result := jumpTo (zextAddr nnn) s

/-- `CALL nnn` (R152). -/
def execCall (nnn : BitVec 12) (s : State) : Result := pushAndJump (zextAddr nnn) s

/-- `SE Vx, kk` (R153). -/
def execSeImm (x : Reg) (kk : Byte) (s : State) : Result := skipIf (s.getV x == kk) s

/-- `SNE Vx, kk` (R154). -/
def execSneImm (x : Reg) (kk : Byte) (s : State) : Result := skipIf (s.getV x != kk) s

/-- `SE Vx, Vy` (R155). -/
def execSeReg (x y : Reg) (s : State) : Result := skipIf (s.getV x == s.getV y) s

/-- `SNE Vx, Vy` (R156). -/
def execSneReg (x y : Reg) (s : State) : Result := skipIf (s.getV x != s.getV y) s

/-- `JP V0, nnn`: no wrap and no mask (R157). -/
def execJpV0 (nnn : BitVec 12) (s : State) : Result := jumpTo (zextByte (s.getV 0) + zextAddr nnn) s

end Sys2Proof.Machine
end

