-- ==== Sys2Proof/Machine/Display.lean ====
section
/-! DEFINITION. The frame-buffer write engine (45_display.md): `CLS` and `DRW`. -/

namespace Sys2Proof.Machine

/-- `CLS`: every cell off, `dirty` set in every case (R240, 90_conflicts.md C6). -/
def execCls (s : State) : Result := .next { s with fb := FrameBuffer.blank, dirty := true }

/-- Writes back what a blit accumulated: `VF` is always written, `dirty` is only ever set (R241). -/
def finishDraw (b : Blit) (s : State) : Result :=
  .next { s.setV Reg.flag (flagByte b.collision) with fb := b.fb, dirty := s.dirty || b.changed }

/-- `DRW Vx, Vy, n`: the range is checked first, the coordinates are read before `VF` is written (R241, decision D12). -/
def execDrw (x y : Reg) (n : Nibble) (s : State) : Result :=
  withRange n.toNat
    (fun s => finishDraw
      (blit (s.getV x).toNat (s.getV y).toNat (Memory.loadBytes s.mem s.i.toNat n.toNat) s.fb) s) s

end Sys2Proof.Machine
end

