-- ==== Sys2Proof/Machine/Gap.lean ====
section
/-! DEFINITION. The decode gap and `SYS`, a gap in every respect (40_execution_cycle.md R133, R134). -/

namespace Sys2Proof.Machine

/-- `diag(a, w)`: the output event is emitted and nothing of the machine changes (R133, decision D18; log entry 6). -/
def emitDiag (w : Word) (s : State) : Result :=
  .next { s with diags := s.diags ++ [{ pcAt := s.instrAddr, word := w }] }

/-- A gap word of groups 8, E, F (R133). -/
def execGap (w : Word) (s : State) : Result := emitDiag w s

/-- `SYS nnn`: the word is `0nnn` (R134). -/
def execSys (nnn : BitVec 12) (s : State) : Result := emitDiag (nnn.setWidth 16) s

end Sys2Proof.Machine
end

