-- ==== Sys2Proof/Machine/Index.lean ====
section
/-! DEFINITION. Index register and memory instructions (43_index_memory.md). No access changes `I` (R203, decision D9). -/

namespace Sys2Proof.Machine

/-- `LD I, nnn` (R200). -/
def execLdI (nnn : BitVec 12) (s : State) : Result := .next { s with i := zextAddr nnn }

/-- `ADD I, Vx`: wraps at 16 bits, no flag (R201, decision D17). -/
def execAddI (x : Reg) (s : State) : Result := .next { s with i := s.i + zextByte (s.getV x) }

/-- `LD F, Vx` (R202). -/
def execLdF (x : Reg) (s : State) : Result := .next { s with i := fontAddr (s.getV x) }

/-- `LD B, Vx`: hundreds, tens, ones at `I`, `I+1`, `I+2` (R204). -/
def execLdB (x : Reg) (s : State) : Result :=
  withRange 3 (fun s => .next { s with mem := Memory.storeBytes s.mem s.i.toNat (bcdDigits (s.getV x)) }) s

/-- `LD [I], Vx`: `V[0]`..`V[x]` to `mem[I]`..`mem[I+x]` (R205). -/
def execLdMemVx (x : Reg) (s : State) : Result :=
  withRange (x.val + 1) (fun s => .next { s with mem := Memory.storeBytes s.mem s.i.toNat (s.regsUpTo x) }) s

/-- `LD Vx, [I]`: `mem[I]`..`mem[I+x]` to `V[0]`..`V[x]` (R206). -/
def execLdVxMem (x : Reg) (s : State) : Result :=
  withRange (x.val + 1)
    (fun s => .next { s with v := writeRegs s.v 0 (Memory.loadBytes s.mem s.i.toNat (x.val + 1)) }) s

end Sys2Proof.Machine
end

