-- ==== Sys2Proof/Machine/KeysTimers.lean ====
section
/-! DEFINITION. Key and timer instructions (44_timers_keys.md). -/

namespace Sys2Proof.Machine

/-- `SKP Vx` (R220). -/
def execSkp (x : Reg) (s : State) : Result := withKey x (fun pressed s => skipIf pressed s) s

/-- `SKNP Vx` (R221). -/
def execSknp (x : Reg) (s : State) : Result := withKey x (fun pressed s => skipIf (!pressed) s) s

/-- `LD Vx, DT` (R222). -/
def execLdVxDt (x : Reg) (s : State) : Result := writeReg x s.dt s

/-- `LD Vx, K` with the number drawn: a pressed key's index goes to `V[x]` and the draw is used up; with no key pressed `pc`
goes back to this instruction and nothing else changes (R223). -/
def waitKeyWith (draw : Nat) (x : Reg) (s : State) : Result :=
  match pickKey draw (pressedKeys s.keys) with
  | some k => writeReg x (BitVec.ofNat 8 k.val) { s with draws := s.draws + 1 }
  | none => jumpTo s.instrAddr s

/-- `LD Vx, K`: which pressed key is a free value (R223, decision D10; log entry 5). -/
def execLdVxK (x : Reg) (s : State) : Result := waitKeyWith (Config.keyPick s.draws) x s

/-- `LD DT, Vx` (R224). -/
def execLdDtVx (x : Reg) (s : State) : Result := .next { s with dt := s.getV x }

/-- `LD ST, Vx` (R225). -/
def execLdStVx (x : Reg) (s : State) : Result := .next { s with st := s.getV x }

end Sys2Proof.Machine
end

