-- ==== Sys2Proof/Machine/Step.lean ====
section
/-! DEFINITION. The `Step` event (40_execution_cycle.md R130), and how a word is placed where the next step fetches it. -/

namespace Sys2Proof.Machine

/-- One step: nothing while a fault is latched (R138), the fetch check (R130), then the decoded instruction on the state whose
`pc` is past its word (R131, R132). -/
def step (s : State) : Host.Outcome State Fault Refusal :=
  match fetch s with
  | .stuck => .next s
  | .outOfRange => raiseFetch s
  | .word w => exec (decode w) s.advance

/-- The state with the word of a table row stored at `pc`, high byte first (20_memory.md R62): the next step fetches it,
provided no fault is latched and `pc` is at most `0xFFE`. Nothing else changes (log entry 12). -/
def State.withFetchWord (s : State) (nbits w : Nat) : State :=
  { s with mem := Memory.storeBytes s.mem s.pc.toNat [(tableWord nbits w).high, (tableWord nbits w).low] }

end Sys2Proof.Machine
end

