-- ==== Sys2Proof/Machine/Events.lean ====
section
/-! DEFINITION. The other atomic events of the block's interface (00_scope.md R6): `Tick`, `KeySet`, `DirtyClear`,
`Reset(image)`, `HostPoke`, and runs of events in any order (decision D15; log entry 3). They act whether or not the core is
faulted (40_execution_cycle.md R138). -/

namespace Sys2Proof.Machine

/-- One timer's countdown: by exactly 1, only if nonzero (60_exceptions.md R270). -/
def countDown (t : Byte) : Byte := if t = 0 then 0 else t - 1

/-- `Tick`: both timers, independently (60_exceptions.md R270). -/
def tick (s : State) : State := { s with dt := countDown s.dt, st := countDown s.st }

/-- `KeySet(k, v)`: `keys[k] <- v` (60_exceptions.md R274). -/
def keySet (k : Fin 16) (v : Bool) (s : State) : State := { s with keys := s.keys.set k.val v }

/-- The debug session's `set-key`: a toggle, which is a `KeySet` (60_exceptions.md R274, 90_conflicts.md C8). -/
def keyToggle (k : Fin 16) (s : State) : State := keySet k (!s.keys[k.val]) s

/-- `DirtyClear`: `dirty <- 0` (60_exceptions.md R277). -/
def dirtyClear (s : State) : State := { s with dirty := false }

/-- The presenter's turn: it reads the frame buffer and the flag and clears the flag, as one event (60_exceptions.md R277). -/
def present (s : State) : (FrameBuffer × Bool) × State := ((s.fb, s.dirty), dirtyClear s)

/-- `Reset(image)`: every field of the machine as after reset, the image from `0x200` upward; an image that does not fit is
refused (70_reset_and_hazards.md R300, R302, decision D19). The free values already used stay used, because the generator is
reseeded (10_state.md R32), and the diagnostics already emitted stay emitted (log entries 4 and 6). -/
def resetWith (image : List Byte) (s : State) : Result :=
  if image.length ≤ Config.maxImage then
    .next { State.reset with
      mem := Memory.storeBytes State.reset.mem Config.loadAddress image
      draws := s.draws
      diags := s.diags }
  else .refused (.imageTooLong image.length)

/-- What `HostPoke` may write, with an in-range value (60_exceptions.md R281). -/
inductive Poke where
  /-- A general register. -/
  | reg (r : Reg) (b : Byte)
  /-- The index register. -/
  | index (w : Word)
  /-- The program counter. -/
  | pc (w : Word)
  /-- The delay timer. -/
  | delay (b : Byte)
  /-- The sound timer. -/
  | sound (b : Byte)
  /-- A byte of memory. -/
  | mem (a : Fin 4096) (b : Byte)
  deriving DecidableEq, Repr

/-- `HostPoke`: a direct write of one register or memory byte (60_exceptions.md R281, decision D24; log entry 3). -/
def poke (p : Poke) (s : State) : State :=
  match p with
  | .reg r b => s.setV r b
  | .index w => { s with i := w }
  | .pc w => { s with pc := w }
  | .delay b => { s with dt := b }
  | .sound b => { s with st := b }
  | .mem a b => { s with mem := Memory.write s.mem a.val b }

/-- The atomic events of 00_scope.md R6. Observation changes nothing and needs no event (60_exceptions.md R280). -/
inductive Event where
  /-- The driver runs one instruction. -/
  | step
  /-- The driver's 60 Hz tick. -/
  | tick
  /-- The input front end reports a press or a release. -/
  | keySet (k : Fin 16) (v : Bool)
  /-- The presenter has read the frame buffer. -/
  | dirtyClear
  /-- The host loads an image. -/
  | reset (image : List Byte)
  /-- The debug session writes a field. -/
  | poke (p : Poke)
  deriving DecidableEq, Repr

/-- One event. -/
def event (e : Event) (s : State) : Result :=
  match e with
  | .step => step s
  | .tick => .next (tick s)
  | .keySet k v => .next (keySet k v s)
  | .dirtyClear => .next (dirtyClear s)
  | .reset image => resetWith image s
  | .poke p => .next (poke p s)

/-- Events in the order the agents issue them (00_scope.md R6). The end of a run is the model's choice, because the hardware gives
none (40_execution_cycle.md R137, decision D28; log entry 15): DESIGN CHOICE, the run ends when the list does, or at an event
that is refused. A latched fault does not end it. -/
def runEvents : List Event → State → Result
  | [], s => .next s
  | e :: es, s =>
    match event e s with
    | .next t => runEvents es t
    | .fault f => .fault f
    | .refused r => .refused r

end Sys2Proof.Machine
end

