-- ==== Sys2Proof/Safety.lean ====
section
/-! DEFINITION. The terms the claims use: a state that runs, the invariant of the reachable states, and "nothing else
changed", said element by element (10_state.md R36). -/

namespace Sys2Proof.Machine

/-- The core is not faulted: the premise and the goal of every safe step (92_eei_decisions.md D4). -/
def State.running (s : State) : Prop := s.fault = none

/-- The next step fetches a word: no fault is latched and both bytes are in memory (40_execution_cycle.md R130). -/
def State.fetches (s : State) : Prop := s.fault = none ∧ s.pc.toNat ≤ 0xFFE

/-- The invariant of the reachable states: memory is in canonical form; `pc` is at most `0x10FE`, the largest value any rule
can give it (10_state.md R23); every stack entry is at most `0x1000`, the largest address a `CALL` can push
(41_control_flow.md R150). -/
def State.Inv (s : State) : Prop :=
  Memory.wf s.mem ∧ s.pc.toNat ≤ 0x10FE ∧ ∀ j : Fin 16, s.stack[j.val].toNat ≤ 0x1000

/-- The debug session writes `pc`, the one event that may break the bound on `pc` (60_exceptions.md R281). -/
def Event.pokesPc : Event → Bool
  | .poke (.pc _) => true
  | _ => false

/-- An element of the machine state (10_state.md R36), or one of the model's own two fields. -/
inductive Element where
  /-- `V[r]`. -/
  | reg (r : Reg)
  /-- `I`. -/
  | index
  /-- `pc`. -/
  | pc
  /-- `sp`. -/
  | depth
  /-- `stack[j]`. -/
  | entry (j : Fin 16)
  /-- `DT`. -/
  | delay
  /-- `ST`. -/
  | sound
  /-- `keys[k]`. -/
  | key (k : Fin 16)
  /-- `fb[p]`. -/
  | cell (p : Fin 2048)
  /-- `dirty`. -/
  | dirty
  /-- The byte of memory at an address. -/
  | byte (a : Nat)
  /-- The fault latch. -/
  | fault
  /-- The count of free values used (the model's own). -/
  | draws
  /-- The diagnostics emitted (the model's own). -/
  | diags
  deriving DecidableEq, Repr

/-- Two states agree on one element. -/
def sameAt (s t : State) : Element → Prop
  | .reg r => t.getV r = s.getV r
  | .index => t.i = s.i
  | .pc => t.pc = s.pc
  | .depth => t.sp = s.sp
  | .entry j => t.stack[j.val] = s.stack[j.val]
  | .delay => t.dt = s.dt
  | .sound => t.st = s.st
  | .key k => t.keys[k.val] = s.keys[k.val]
  | .cell p => FrameBuffer.cell t.fb p.val = FrameBuffer.cell s.fb p.val
  | .dirty => t.dirty = s.dirty
  | .byte a => Memory.read t.mem a = Memory.read s.mem a
  | .fault => t.fault = s.fault
  | .draws => t.draws = s.draws
  | .diags => t.diags = s.diags

/-- The frame: `t` agrees with `s` on every element that is not among `changed`. -/
def changesOnly (s t : State) (changed : Element → Prop) : Prop := ∀ e, ¬ changed e → sameAt s t e

/-- The frame of a raised fault: the address of the dispatched instruction is `pc` again, the latch holds the fault, and
nothing else changed (60_exceptions.md R263). -/
def faultedAs (s t : State) (f : Fault) (info : Nat) : Prop :=
  t.pc = s.pc - 2 ∧ t.fault = some { cause := f, pcAt := s.pc - 2, info := info } ∧
    changesOnly s t (fun e => e = .pc ∨ e = .fault)

end Sys2Proof.Machine
end

