-- ==== Sys2Proof/Certificates/Slice0/Obligations.lean ====
section
/-! DEFINITION. The statements for the provers, each `def Obligations.<Name> : Prop`, from the numbered rules of the spec. A
statement about an instruction says which word decodes to it (written as a number, not by the encoder), that `exec` ANSWERS a
next state, what that state holds, and that nothing else changed (`changesOnly`). `exec` runs on the dispatched state, whose
`pc` is the instruction's address plus 2 (40_execution_cycle.md R131). -/

open Sys2Proof Sys2Proof.Machine

/-! ## Words written as numbers (30_encoding.md R91, R92) -/

/-- `o nnn`. -/
def Sys2Proof.Claims.wordNNN (o : Nat) (nnn : BitVec 12) : Word := BitVec.ofNat 16 (0x1000 * o + nnn.toNat)

/-- `o x kk`. -/
def Sys2Proof.Claims.wordXKK (o : Nat) (x : Reg) (kk : Nat) : Word := BitVec.ofNat 16 (0x1000 * o + 0x100 * x.val + kk)

/-- `o x y n`. -/
def Sys2Proof.Claims.wordXYN (o : Nat) (x y : Reg) (n : Nat) : Word :=
  BitVec.ofNat 16 (0x1000 * o + 0x100 * x.val + 0x10 * y.val + n)

open Sys2Proof.Claims

/-! ## Encoding and decoding -/

/-- Decoding the word of a well-formed instruction gives it back, with every field (30_encoding.md R91 to R98, R107). -/
def Obligations.DecodeOfEncodeIsIdentity : Prop :=
  ∀ i : Instr, WellFormed i = true → decode (encode i) = i

/-- Every word decodes to a well-formed instruction whose word it is: with the converse, decoding is one to one. -/
def Obligations.EncodeOfDecodeIsIdentity : Prop :=
  ∀ w : Word, WellFormed (decode w) = true ∧ encode (decode w) = w

/-- The decode tree picks the first row of the opcode table that matches (30_encoding.md R107). -/
def Obligations.DecodeFollowsOpcodeTable : Prop :=
  ∀ w : Word, (decode w).rowNumber = firstRow w

/-- Decoding bytes never fails on a whole word, takes two bytes, and every word is an instruction of the machine; SUPER-CHIP
words are gaps (30_encoding.md R101). -/
def Obligations.DecodingIsTotal : Prop :=
  (∀ (hi lo : Byte) (rest : List Byte),
    decodeBytes (hi :: lo :: rest) = .ok (decode (BitVec.ofNat 16 (hi.toNat * 256 + lo.toNat)), rest)) ∧
  (∀ w : Word, WellFormed (decode w) = true) ∧
  decode 0x00FF = .sys 0x0FF ∧
  (∀ x : Reg, decode (wordXKK 0xF x 0x30) = .gap (wordXKK 0xF x 0x30) ∧
    decode (wordXKK 0xF x 0x75) = .gap (wordXKK 0xF x 0x75))

/-- Which words are gaps, and which group-0 words are `SYS` (30_encoding.md R94 to R97, R100). -/
def Obligations.GapWordsAreExactlyThese : Prop :=
  ∀ w : Word,
    let op := w.toNat / 0x1000
    let n := w.toNat % 0x10
    let kk := w.toNat % 0x100
    (decode w = .gap w ↔
      (op = 8 ∧ n ∉ [0, 1, 2, 3, 4, 5, 6, 7, 0xE]) ∨
      (op = 0xE ∧ kk ∉ [0x9E, 0xA1]) ∨
      (op = 0xF ∧ kk ∉ [0x07, 0x0A, 0x15, 0x18, 0x1E, 0x29, 0x33, 0x55, 0x65])) ∧
    ((∃ nnn, decode w = .sys nnn) ↔ op = 0 ∧ kk ∉ [0xE0, 0xEE])

/-- The bits the tree does not examine change nothing: aliases decode to the same operation and execute as the canonical word
with the same operands (30_encoding.md R98, R103). -/
def Obligations.AliasesExecuteAsCanonical : Prop :=
  ∀ (x y : Reg) (g : Nibble) (s : State),
    decode (wordXKK 0 (regOfBits g) 0xE0) = .cls g ∧ exec (.cls g) s = exec (.cls 0) s ∧
    decode (wordXKK 0 (regOfBits g) 0xEE) = .ret g ∧ exec (.ret g) s = exec (.ret 0) s ∧
    decode (wordXYN 5 x y g.toNat) = .seReg x y g ∧ exec (.seReg x y g) s = exec (.seReg x y 0) s ∧
    decode (wordXYN 9 x y g.toNat) = .sneReg x y g ∧ exec (.sneReg x y g) s = exec (.sneReg x y 0) s

/-- Words written out from the spec's patterns (95_test_vectors.md V-DEC), one or more of each of the sixteen groups. -/
def Obligations.WordsOfTheSpecDecode : Prop :=
  decode 0x00E0 = .cls 0 ∧ decode 0x00EE = .ret 0 ∧ decode 0x0000 = .sys 0 ∧ decode 0x1ABC = .jp 0xABC ∧
  decode 0x2ABC = .call 0xABC ∧ decode 0x3A12 = .seImm 10 0x12 ∧ decode 0x4A12 = .sneImm 10 0x12 ∧
  decode 0x5AB7 = .seReg 10 11 7 ∧ decode 0x6A05 = .ldImm 10 5 ∧ decode 0x7A03 = .addImm 10 3 ∧
  decode 0x8ABE = .shl 10 11 ∧ decode 0x8ABF = .gap 0x8ABF ∧ decode 0x9ABF = .sneReg 10 11 15 ∧
  decode 0xAABC = .ldI 0xABC ∧ decode 0xBABC = .jpV0 0xABC ∧ decode 0xCA0F = .rnd 10 0x0F ∧ decode 0xDAB5 = .drw 10 11 5 ∧
  decode 0xEA9E = .skp 10 ∧ decode 0xFA33 = .ldB 10 ∧ decode 0xFA65 = .ldVxMem 10

/-! ## The step -/

/-- The step cycle (40_execution_cycle.md R130): stuck when faulted, the fetch check, the big-endian fetch, the advance, then
the decoded instruction. -/
def Obligations.StepCycle : Prop :=
  ∀ s : State,
    (s.fault ≠ none → step s = .next s) ∧
    (s.fault = none → s.pc.toNat > 0xFFE →
      step s = .next { s with fault := some { cause := .fetchOutOfRange, pcAt := s.pc, info := s.pc.toNat } }) ∧
    (s.fault = none → s.pc.toNat ≤ 0xFFE →
      step s = exec
        (decode (BitVec.ofNat 16
          ((Memory.read s.mem s.pc.toNat).toNat * 256 + (Memory.read s.mem (s.pc.toNat + 1)).toNat)))
        { s with pc := s.pc + 2 })

/-- A step runs the decoded instruction: when the two bytes at `pc` are those of a well-formed instruction, the step is that
instruction on the state with `pc` moved past it. -/
def Obligations.StepRunsDecodedInstruction : Prop :=
  ∀ (s : State) (i : Instr), s.fault = none → s.pc.toNat ≤ 0xFFE → WellFormed i = true →
    (decodeBytes [Memory.read s.mem s.pc.toNat, Memory.read s.mem (s.pc.toNat + 1)] = .ok (i, []) ∨
      Memory.loadBytes s.mem s.pc.toNat 2 = encodeBytes i) →
    step s = exec i { s with pc := s.pc + 2 }

/-- Every step answers a next state: nothing is refused and no step ends in a fault outcome, from any state; the core "never
stops by itself" (40_execution_cycle.md R137). -/
def Obligations.EveryStepAnswersNext : Prop :=
  ∀ s : State, ∃ t, step s = .next t

/-- While a fault is latched a step changes nothing, `Tick`, `KeySet` and `DirtyClear` still act, and only `Reset` leaves the
faulted state (40_execution_cycle.md R138). -/
def Obligations.FaultedCoreIsStuck : Prop :=
  ∀ s : State, s.fault ≠ none →
    event .step s = .next s ∧
    event .tick s = .next (tick s) ∧
    (∀ k v, event (.keySet k v) s = .next (keySet k v s)) ∧
    event .dirtyClear s = .next (dirtyClear s) ∧
    (∀ e t, event e s = .next t → t.fault ≠ s.fault → (∃ image, e = .reset image) ∧ t.fault = none)

/-- Faults are precise: a step that latches a fault changes nothing else, `pc` included, and records the instruction's address
(40_execution_cycle.md R135). -/
def Obligations.FaultsArePrecise : Prop :=
  ∀ s t : State, s.fault = none → step s = .next t → t.fault ≠ none →
    ∃ (f : Fault) (info : Nat), t = { s with fault := some { cause := f, pcAt := s.pc, info := info } }

/-- The fault a step must latch: the condition, address and value of each (60_exceptions.md R260, R261). The fetch check comes
before decode (R264). -/
def Sys2Proof.Claims.expectedFault (s : State) : Option FaultRecord :=
  let at' (f : Fault) (info : Nat) (c : Bool) : Option FaultRecord := if c then some ⟨f, s.pc, info⟩ else none
  let data (last : Nat) := at' .dataAddressOutOfRange (max s.i.toNat 0x1000) (decide (s.i.toNat + last > 0xFFF))
  if s.pc.toNat > 0xFFE then some ⟨.fetchOutOfRange, s.pc, s.pc.toNat⟩
  else
    match decode (Memory.fetchWord s.mem s.pc.toNat) with
    | .drw _ _ n => if n = 0 then none else data (n.toNat - 1)
    | .ldB _ => data 2
    | .ldMemVx x => data x.val
    | .ldVxMem x => data x.val
    | .call _ => at' .stackOverflow 16 (s.sp == 16)
    | .ret _ => at' .stackUnderflow 0 (s.sp == 0)
    | .skp x => at' .keyIndexOutOfRange (s.getV x).toNat (decide ((s.getV x).toNat > 15))
    | .sknp x => at' .keyIndexOutOfRange (s.getV x).toNat (decide ((s.getV x).toNat > 15))
    | _ => none

/-- A step of a running core latches exactly the fault of the table, or none (60_exceptions.md R260, R261, R264). -/
def Obligations.FaultsAreExactlyTheTable : Prop :=
  (∀ s t : State, s.fault = none → step s = .next t → t.fault = expectedFault s) ∧
  [Fault.fetchOutOfRange, .dataAddressOutOfRange, .stackOverflow, .stackUnderflow, .keyIndexOutOfRange].map Fault.code =
    [1, 2, 3, 4, 5] ∧
  (∀ s : State, s.causeCode = 0 ↔ s.fault = none)

/-! ## The invariant -/

/-- Every step keeps the invariant: `pc` at most `0x10FE` (10_state.md R23), every stack entry at most `0x1000`
(41_control_flow.md R150), and memory canonical, which is the form the model chose for memory and no rule of the spec (log
entry 2). -/
def Obligations.StepKeepsInvariant : Prop :=
  ∀ s t : State, s.Inv → step s = .next t → t.Inv

/-- The state after reset meets the invariant: `pc` and the stack by 10_state.md R35; that memory is canonical is about the form
the model chose for it (log entry 2). -/
def Obligations.ResetMeetsInvariant : Prop := State.reset.Inv

/-- Every run of events, in any order (00_scope.md R6), keeps the invariant if the debug session does not write `pc`. The
canonical form of memory, which the model chose (log entry 2), is kept by every run. -/
def Obligations.RunsKeepInvariant : Prop :=
  ∀ (es : List Event) (s t : State), runEvents es s = .next t →
    (Memory.wf s.mem → Memory.wf t.mem) ∧ (s.Inv → (∀ e ∈ es, e.pokesPc = false) → t.Inv)

/-- In canonical form, memories that read alike are equal: memory is determined by what it reads as. This is about the form the
model chose for memory (log entry 2), not a rule of the spec. -/
def Obligations.CanonicalMemoryIsUnique : Prop :=
  ∀ m m' : Memory, Memory.wf m → Memory.wf m' →
    (∀ a, a < 0x1000 → Memory.read m a = Memory.read m' a) → m = m'

/-! ## Control transfer (41_control_flow.md) -/

/-- `RET` (R150): the top entry goes to `pc` and stays where it was; the return address `0x1000` makes the next fetch fault. -/
def Obligations.ReturnPopsPc : Prop :=
  ∀ (g : Nibble) (s : State),
    decode 0x00EE = .ret 0 ∧
    (s.sp = 0 → ∃ t, exec (.ret g) s = .next t ∧ faultedAs s t .stackUnderflow 0) ∧
    (∀ j : Fin 16, s.sp.val = j.val + 1 →
      ∃ t, exec (.ret g) s = .next t ∧ t.sp.val = j.val ∧ t.pc = s.stack[j.val] ∧
        (s.Inv → t.pc.toNat ≤ 0x1000) ∧ (s.fault = none → s.stack[j.val] = 0x1000 → fetch t = .outOfRange) ∧
        changesOnly s t (fun e => e = .pc ∨ e = .depth))

/-- `JP nnn` (R151); a jump to `0xFFF` makes the next fetch fault. -/
def Obligations.JumpIsAbsolute : Prop :=
  ∀ (nnn : BitVec 12) (s : State),
    decode (wordNNN 1 nnn) = .jp nnn ∧
    ∃ t, exec (.jp nnn) s = .next t ∧ t.pc.toNat = nnn.toNat ∧ changesOnly s t (fun e => e = .pc) ∧
      (s.fault = none → nnn = 0xFFF → fetch t = .outOfRange)

/-- A jump to its own address is the idle loop: the step changes nothing (R151, 40_execution_cycle.md R137). -/
def Obligations.JumpToSelfChangesNothing : Prop :=
  ∀ (s : State) (nnn : BitVec 12), s.fetches → s.pc.toNat = nnn.toNat →
    Memory.fetchWord s.mem s.pc.toNat = wordNNN 1 nnn → step s = .next s

/-- `CALL nnn` (R152): at depth 16 it faults; otherwise it pushes the return address, which is `pc` at dispatch, and a `RET`
from the callee, wherever it stands, restores that `pc` and the depth. -/
def Obligations.CallPushesReturnAddress : Prop :=
  ∀ (nnn : BitVec 12) (s : State),
    decode (wordNNN 2 nnn) = .call nnn ∧
    (s.sp = 16 → ∃ t, exec (.call nnn) s = .next t ∧ faultedAs s t .stackOverflow 16) ∧
    (∀ j : Fin 16, s.sp.val = j.val →
      ∃ t, exec (.call nnn) s = .next t ∧ t.sp.val = j.val + 1 ∧ t.stack[j.val] = s.pc ∧ t.pc.toNat = nnn.toNat ∧
        changesOnly s t (fun e => e = .pc ∨ e = .depth ∨ e = .entry j) ∧
        ∀ (g : Nibble) (p : Word), ∃ u, exec (.ret g) { t with pc := p } = .next u ∧ u.pc = s.pc ∧ u.sp = s.sp)

/-- Calls and returns nest: whatever the callee did, if it left the stack and its depth as the `CALL` made them, the `RET`
comes back to the `pc` and the depth of the `CALL`, and the callers' entries are still there (R150, R152). -/
def Obligations.CallsAndReturnsNest : Prop :=
  ∀ (nnn : BitVec 12) (g : Nibble) (s t u v : State), s.sp.val < 16 → exec (.call nnn) s = .next t →
    u.sp = t.sp → (∀ j : Fin 16, j.val < t.sp.val → u.stack[j.val] = t.stack[j.val]) → exec (.ret g) u = .next v →
    v.pc = s.pc ∧ v.sp = s.sp ∧ v.fault = u.fault ∧
      ∀ j : Fin 16, j.val < s.sp.val → v.stack[j.val] = s.stack[j.val]

/-- `SE Vx, kk` and `SNE Vx, kk` (R153, R154). -/
def Obligations.SkipsOnImmediate : Prop :=
  ∀ (x : Reg) (kk : Byte) (s : State),
    decode (wordXKK 3 x kk.toNat) = .seImm x kk ∧ decode (wordXKK 4 x kk.toNat) = .sneImm x kk ∧
    (∃ t, exec (.seImm x kk) s = .next t ∧
      (s.getV x = kk → t.pc = s.pc + 2) ∧ (s.getV x ≠ kk → t.pc = s.pc) ∧ changesOnly s t (fun e => e = .pc)) ∧
    (∃ t, exec (.sneImm x kk) s = .next t ∧
      (s.getV x = kk → t.pc = s.pc) ∧ (s.getV x ≠ kk → t.pc = s.pc + 2) ∧ changesOnly s t (fun e => e = .pc))

/-- `SE Vx, Vy` and `SNE Vx, Vy`, whatever the low nibble (R155, R156); with `x = y` the first always skips and the second
never. -/
def Obligations.SkipsOnRegisters : Prop :=
  ∀ (x y : Reg) (g : Nibble) (s : State),
    decode (wordXYN 5 x y g.toNat) = .seReg x y g ∧ decode (wordXYN 9 x y g.toNat) = .sneReg x y g ∧
    (∃ t, exec (.seReg x y g) s = .next t ∧
      (s.getV x = s.getV y → t.pc = s.pc + 2) ∧ (s.getV x ≠ s.getV y → t.pc = s.pc) ∧
      (x = y → t.pc = s.pc + 2) ∧ changesOnly s t (fun e => e = .pc)) ∧
    (∃ t, exec (.sneReg x y g) s = .next t ∧
      (s.getV x = s.getV y → t.pc = s.pc) ∧ (s.getV x ≠ s.getV y → t.pc = s.pc + 2) ∧
      (x = y → t.pc = s.pc) ∧ changesOnly s t (fun e => e = .pc))

/-- `JP V0, nnn` (R157): the sum, neither wrapped nor masked; above `0xFFE` the next fetch faults. -/
def Obligations.JumpWithOffsetAddsV0 : Prop :=
  ∀ (nnn : BitVec 12) (s : State),
    decode (wordNNN 0xB nnn) = .jpV0 nnn ∧
    ∃ t, exec (.jpV0 nnn) s = .next t ∧ t.pc.toNat = (s.getV 0).toNat + nnn.toNat ∧ t.pc.toNat ≤ 0x10FE ∧
      changesOnly s t (fun e => e = .pc) ∧
      (s.fault = none → (s.getV 0).toNat + nnn.toNat > 0xFFE → fetch t = .outOfRange)

/-! ## Register and ALU instructions (42_alu.md) -/

/-- `LD Vx, kk` and `ADD Vx, kk` (R171, R172): no flag. -/
def Obligations.ImmediateLoadAndAdd : Prop :=
  ∀ (x : Reg) (kk : Byte) (s : State),
    decode (wordXKK 6 x kk.toNat) = .ldImm x kk ∧ decode (wordXKK 7 x kk.toNat) = .addImm x kk ∧
    (∃ t, exec (.ldImm x kk) s = .next t ∧ t.getV x = kk ∧ changesOnly s t (fun e => e = .reg x)) ∧
    (∃ t, exec (.addImm x kk) s = .next t ∧ (t.getV x).toNat = ((s.getV x).toNat + kk.toNat) % 256 ∧
      changesOnly s t (fun e => e = .reg x))

/-- `LD`, `OR`, `AND`, `XOR` on registers, bit by bit (R173 to R176): no flag. -/
def Obligations.RegisterCopyAndLogic : Prop :=
  ∀ (x y : Reg) (s : State),
    decode (wordXYN 8 x y 0) = .ldReg x y ∧ decode (wordXYN 8 x y 1) = .orReg x y ∧
    decode (wordXYN 8 x y 2) = .andReg x y ∧ decode (wordXYN 8 x y 3) = .xorReg x y ∧
    (∃ t, exec (.ldReg x y) s = .next t ∧ t.getV x = s.getV y ∧ changesOnly s t (fun e => e = .reg x)) ∧
    (∃ t, exec (.orReg x y) s = .next t ∧
      (∀ b, (t.getV x).getLsbD b = true ↔ (s.getV x).getLsbD b = true ∨ (s.getV y).getLsbD b = true) ∧
      changesOnly s t (fun e => e = .reg x)) ∧
    (∃ t, exec (.andReg x y) s = .next t ∧
      (∀ b, (t.getV x).getLsbD b = true ↔ (s.getV x).getLsbD b = true ∧ (s.getV y).getLsbD b = true) ∧
      changesOnly s t (fun e => e = .reg x)) ∧
    (∃ t, exec (.xorReg x y) s = .next t ∧
      (∀ b, (t.getV x).getLsbD b = true ↔ (s.getV x).getLsbD b ≠ (s.getV y).getLsbD b) ∧
      changesOnly s t (fun e => e = .reg x))

/-- `ADD Vx, Vy` (R177): the truncated sum, `VF` the carry; with `x = 15` the sum stays; operands as before the instruction. -/
def Obligations.AddSetsSumAndCarry : Prop :=
  ∀ (x y : Reg) (s : State),
    decode (wordXYN 8 x y 4) = .addReg x y ∧
    ∃ t, exec (.addReg x y) s = .next t ∧
      (t.getV x).toNat = ((s.getV x).toNat + (s.getV y).toNat) % 256 ∧
      (x ≠ 15 → (t.getV 15).toNat = if (s.getV x).toNat + (s.getV y).toNat > 255 then 1 else 0) ∧
      changesOnly s t (fun e => e = .reg x ∨ e = .reg 15)

/-- `SUB Vx, Vy` and `SUBN Vx, Vy` (R178, R180): the difference mod 256, `VF` 1 iff strictly greater, so 0 at equality. -/
def Obligations.SubtractsSetDifferenceAndFlag : Prop :=
  ∀ (x y : Reg) (s : State),
    decode (wordXYN 8 x y 5) = .subReg x y ∧ decode (wordXYN 8 x y 7) = .subnReg x y ∧
    (∃ t, exec (.subReg x y) s = .next t ∧
      ((t.getV x).toNat : Int) = (((s.getV x).toNat : Int) - ((s.getV y).toNat : Int)) % 256 ∧
      (x ≠ 15 → (t.getV 15).toNat = if (s.getV x).toNat > (s.getV y).toNat then 1 else 0) ∧
      changesOnly s t (fun e => e = .reg x ∨ e = .reg 15)) ∧
    (∃ t, exec (.subnReg x y) s = .next t ∧
      ((t.getV x).toNat : Int) = (((s.getV y).toNat : Int) - ((s.getV x).toNat : Int)) % 256 ∧
      (x ≠ 15 → (t.getV 15).toNat = if (s.getV y).toNat > (s.getV x).toNat then 1 else 0) ∧
      changesOnly s t (fun e => e = .reg x ∨ e = .reg 15))

/-- `SHR Vx` and `SHL Vx` (R179, R181): in place, `VF` the bit shifted out; `Vy` is neither read nor written. -/
def Obligations.ShiftsSetResultAndLostBit : Prop :=
  ∀ (x y : Reg) (s : State),
    decode (wordXYN 8 x y 6) = .shr x y ∧ decode (wordXYN 8 x y 0xE) = .shl x y ∧
    (∃ t, exec (.shr x y) s = .next t ∧ (t.getV x).toNat = (s.getV x).toNat / 2 ∧
      (x ≠ 15 → (t.getV 15).toNat = (s.getV x).toNat % 2) ∧
      changesOnly s t (fun e => e = .reg x ∨ e = .reg 15)) ∧
    (∃ t, exec (.shl x y) s = .next t ∧ (t.getV x).toNat = 2 * (s.getV x).toNat % 256 ∧
      (x ≠ 15 → (t.getV 15).toNat = (s.getV x).toNat / 128) ∧
      changesOnly s t (fun e => e = .reg x ∨ e = .reg 15))

/-- `RND Vx, kk` (R182): the drawn byte and the mask. `rndWith` is the meaning at each byte that may be drawn; the byte drawn
is a free value and the count of draws is the model's own (log entry 4). -/
def Obligations.RandomIsMaskedDraw : Prop :=
  ∀ (x : Reg) (kk : Byte) (s : State),
    decode (wordXKK 0xC x kk.toNat) = .rnd x kk ∧
    (∃ draw : Byte, exec (.rnd x kk) s = rndWith draw x kk s) ∧
    (∃ t, exec (.rnd x kk) s = .next t ∧ changesOnly s t (fun e => e = .reg x ∨ e = .draws)) ∧
    (∀ draw : Byte, ∃ t, rndWith draw x kk s = .next t ∧
      (∀ b, (t.getV x).getLsbD b = true ↔ draw.getLsbD b = true ∧ kk.getLsbD b = true) ∧
      (kk = 0 → t.getV x = 0) ∧ (kk = 0xFF → t.getV x = draw) ∧
      changesOnly s t (fun e => e = .reg x ∨ e = .draws))

/-- The register an instruction names as its destination, for `LD Vx, [I]` the last one (10_state.md R21, R36). -/
def Sys2Proof.Claims.destination : Instr → Option Reg
  | .ldImm x _ | .addImm x _ | .ldReg x _ | .orReg x _ | .andReg x _ | .xorReg x _ => some x
  | .addReg x _ | .subReg x _ | .shr x _ | .subnReg x _ | .shl x _ => some x
  | .rnd x _ | .ldVxDt x | .ldVxK x | .ldVxMem x => some x
  | _ => none

/-- The instructions that write `VF` as a side effect (10_state.md R21). -/
def Sys2Proof.Claims.writesFlag : Instr → Bool
  | .addReg _ _ | .subReg _ _ | .subnReg _ _ | .shr _ _ | .shl _ _ | .drw _ _ _ => true
  | _ => false

/-- A field `x` or `y` of the instruction names `VF` (10_state.md R21). -/
def Sys2Proof.Claims.namesFlag : Instr → Bool
  | .seImm x _ | .sneImm x _ | .ldImm x _ | .addImm x _ | .rnd x _ => x == 15
  | .seReg x y _ | .sneReg x y _ | .drw x y _ => x == 15 || y == 15
  | .ldReg x y | .orReg x y | .andReg x y | .xorReg x y | .addReg x y | .subReg x y | .subnReg x y => x == 15 || y == 15
  | .shr x y | .shl x y => x == 15 || y == 15
  | .skp x | .sknp x | .ldVxDt x | .ldVxK x | .ldDtVx x | .ldStVx x | .addI x | .ldF x | .ldB x | .ldMemVx x
  | .ldVxMem x => x == 15
  | _ => false

/-- `VF` is written only by the six flag writers or as a named destination, and is read only where a field names it: with
another value in `VF`, an instruction that does not name `VF` does the same to everything else; and when `x = 15` in a
flag-writing instruction the flag is written first and the result second, so `VF` ends holding the result (10_state.md R21,
42_alu.md R170). -/
def Obligations.FlagRegisterIsOrdinary : Prop :=
  (∀ (i : Instr) (s t : State), exec i s = .next t → t.getV 15 ≠ s.getV 15 →
    writesFlag i = true ∨ destination i = some 15) ∧
  (∀ (i : Instr) (s t : State) (b : Byte), namesFlag i = false → exec i s = .next t →
    ∃ u, exec i (s.setV 15 b) = .next u ∧ changesOnly t u (fun e => e = .reg 15)) ∧
  (∀ (y : Reg) (s : State), ∃ t₁ t₂ t₃ t₄ t₅ : State,
    exec (.addReg 15 y) s = .next t₁ ∧ (t₁.getV 15).toNat = ((s.getV 15).toNat + (s.getV y).toNat) % 256 ∧
    exec (.subReg 15 y) s = .next t₂ ∧ (t₂.getV 15).toNat = ((s.getV 15).toNat + 256 - (s.getV y).toNat) % 256 ∧
    exec (.subnReg 15 y) s = .next t₃ ∧ (t₃.getV 15).toNat = ((s.getV y).toNat + 256 - (s.getV 15).toNat) % 256 ∧
    exec (.shr 15 y) s = .next t₄ ∧ (t₄.getV 15).toNat = (s.getV 15).toNat / 2 ∧
    exec (.shl 15 y) s = .next t₅ ∧ (t₅.getV 15).toNat = 2 * (s.getV 15).toNat % 256)

/-! ## Index register and memory (43_index_memory.md) -/

/-- `LD I, nnn` and `ADD I, Vx` (R200, R201): the sum wraps at 16 bits only, no flag. -/
def Obligations.IndexLoadAndAdd : Prop :=
  ∀ (x : Reg) (nnn : BitVec 12) (s : State),
    decode (wordNNN 0xA nnn) = .ldI nnn ∧ decode (wordXKK 0xF x 0x1E) = .addI x ∧
    (∃ t, exec (.ldI nnn) s = .next t ∧ t.i.toNat = nnn.toNat ∧ changesOnly s t (fun e => e = .index)) ∧
    (∃ t, exec (.addI x) s = .next t ∧ t.i.toNat = (s.i.toNat + (s.getV x).toNat) % 65536 ∧
      changesOnly s t (fun e => e = .index))

/-- `LD F, Vx` (R202): five times the whole byte; for a digit, while the font is in place (as every `Reset` leaves it, whatever
the image), the five bytes there are the built-in glyph. -/
def Obligations.FontAddressIsFiveTimesDigit : Prop :=
  ∀ (x : Reg) (s : State),
    decode (wordXKK 0xF x 0x29) = .ldF x ∧
    ∃ t, exec (.ldF x) s = .next t ∧ t.i.toNat = 5 * (s.getV x).toNat ∧ changesOnly s t (fun e => e = .index) ∧
      ((s.getV x).toNat < 16 → (∀ a, a < 0x50 → Memory.read s.mem a = fontBytes.getD a 0) →
        some (Memory.loadBytes t.mem t.i.toNat 5) = (glyph0 :: glyphs1toF)[(s.getV x).toNat]?)

/-- `LD B, Vx` (R204). -/
def Obligations.StoreBcdWritesDigits : Prop :=
  ∀ (x : Reg) (s : State),
    decode (wordXKK 0xF x 0x33) = .ldB x ∧
    (s.i.toNat + 2 > 0xFFF →
      ∃ t, exec (.ldB x) s = .next t ∧ faultedAs s t .dataAddressOutOfRange (max s.i.toNat 0x1000)) ∧
    (s.i.toNat + 2 ≤ 0xFFF →
      ∃ t, exec (.ldB x) s = .next t ∧
        (Memory.read t.mem s.i.toNat).toNat = (s.getV x).toNat / 100 ∧
        (Memory.read t.mem (s.i.toNat + 1)).toNat = (s.getV x).toNat / 10 % 10 ∧
        (Memory.read t.mem (s.i.toNat + 2)).toNat = (s.getV x).toNat % 10 ∧
        changesOnly s t (fun e => ∃ a, e = .byte a ∧ s.i.toNat ≤ a ∧ a ≤ s.i.toNat + 2))

/-- `LD [I], Vx` (R205). -/
def Obligations.RegisterDumpStoresRange : Prop :=
  ∀ (x : Reg) (s : State),
    decode (wordXKK 0xF x 0x55) = .ldMemVx x ∧
    (s.i.toNat + x.val > 0xFFF →
      ∃ t, exec (.ldMemVx x) s = .next t ∧ faultedAs s t .dataAddressOutOfRange (max s.i.toNat 0x1000)) ∧
    (s.i.toNat + x.val ≤ 0xFFF →
      ∃ t, exec (.ldMemVx x) s = .next t ∧
        (∀ j : Reg, j ≤ x → Memory.read t.mem (s.i.toNat + j.val) = s.getV j) ∧
        changesOnly s t (fun e => ∃ a, e = .byte a ∧ s.i.toNat ≤ a ∧ a ≤ s.i.toNat + x.val))

/-- `LD Vx, [I]` (R206), and the round trip: a dump of registers `0..x`, then a load of the same range into any register
contents, gives those registers back and does not disturb the others. -/
def Obligations.RegisterLoadReadsRange : Prop :=
  ∀ (x : Reg) (s : State),
    decode (wordXKK 0xF x 0x65) = .ldVxMem x ∧
    (s.i.toNat + x.val > 0xFFF →
      ∃ t, exec (.ldVxMem x) s = .next t ∧ faultedAs s t .dataAddressOutOfRange (max s.i.toNat 0x1000)) ∧
    (s.i.toNat + x.val ≤ 0xFFF →
      (∃ t, exec (.ldVxMem x) s = .next t ∧
        (∀ j : Reg, j ≤ x → t.getV j = Memory.read s.mem (s.i.toNat + j.val)) ∧
        changesOnly s t (fun e => ∃ j : Reg, e = .reg j ∧ j ≤ x)) ∧
      (∀ (t : State) (v : Vector Byte 16), exec (.ldMemVx x) s = .next t →
        ∃ u, exec (.ldVxMem x) { t with v := v } = .next u ∧
          ∀ j : Reg, (j ≤ x → u.getV j = s.getV j) ∧ (x < j → u.getV j = v[j.val])))

/-- A store into code is seen by the very next fetch (20_memory.md R72): when the dump of one step covers the next two
instruction bytes, the next step fetches what was stored. -/
def Obligations.StoreIsSeenByNextFetch : Prop :=
  ∀ (s t : State) (x j k : Reg), s.fetches → decode (Memory.fetchWord s.mem s.pc.toNat) = .ldMemVx x →
    s.i.toNat + x.val ≤ 0xFFF → k.val = j.val + 1 → k ≤ x → s.i.toNat + j.val = s.pc.toNat + 2 → step s = .next t →
    fetch t = .word (BitVec.ofNat 16 ((s.getV j).toNat * 256 + (s.getV k).toNat))

/-! ## Keys and timers (44_timers_keys.md, 60_exceptions.md) -/

/-- `SKP Vx` and `SKNP Vx` (R220, R221): the key whose number is the value of `V[x]`; above 15 they fault. -/
def Obligations.KeySkipsTestNamedKey : Prop :=
  ∀ (x : Reg) (s : State),
    decode (wordXKK 0xE x 0x9E) = .skp x ∧ decode (wordXKK 0xE x 0xA1) = .sknp x ∧
    ((s.getV x).toNat > 15 →
      (∃ t, exec (.skp x) s = .next t ∧ faultedAs s t .keyIndexOutOfRange (s.getV x).toNat) ∧
      (∃ t, exec (.sknp x) s = .next t ∧ faultedAs s t .keyIndexOutOfRange (s.getV x).toNat)) ∧
    (∀ k : Fin 16, (s.getV x).toNat = k.val →
      (∃ t, exec (.skp x) s = .next t ∧ (s.keys[k.val] = true → t.pc = s.pc + 2) ∧
        (s.keys[k.val] = false → t.pc = s.pc) ∧ changesOnly s t (fun e => e = .pc)) ∧
      (∃ t, exec (.sknp x) s = .next t ∧ (s.keys[k.val] = false → t.pc = s.pc + 2) ∧
        (s.keys[k.val] = true → t.pc = s.pc) ∧ changesOnly s t (fun e => e = .pc)))

/-- `LD Vx, K` (R223): with no key pressed only `pc` goes back to the instruction; otherwise a pressed key's index is written,
the one pressed key's if there is one. `waitKeyWith` is the meaning at each draw; every pressed key can be the one reported,
and which it is is a free value (log entry 5). -/
def Obligations.WaitForKeyTakesPressedKey : Prop :=
  ∀ (x : Reg) (s : State),
    decode (wordXKK 0xF x 0x0A) = .ldVxK x ∧
    (∃ draw, exec (.ldVxK x) s = waitKeyWith draw x s) ∧
    ((∀ k : Fin 16, s.keys[k.val] = false) →
      ∃ t, exec (.ldVxK x) s = .next t ∧ t.pc = s.pc - 2 ∧ changesOnly s t (fun e => e = .pc)) ∧
    ((∃ k : Fin 16, s.keys[k.val] = true) →
      ∃ t, exec (.ldVxK x) s = .next t ∧ (∃ k : Fin 16, s.keys[k.val] = true ∧ (t.getV x).toNat = k.val) ∧
        changesOnly s t (fun e => e = .reg x ∨ e = .draws)) ∧
    (∀ k : Fin 16, s.keys[k.val] = true → ∃ draw t, waitKeyWith draw x s = .next t ∧ (t.getV x).toNat = k.val)

/-- `LD Vx, DT`, `LD DT, Vx`, `LD ST, Vx` (R222, R224, R225). -/
def Obligations.TimerTransfers : Prop :=
  ∀ (x : Reg) (s : State),
    decode (wordXKK 0xF x 0x07) = .ldVxDt x ∧ decode (wordXKK 0xF x 0x15) = .ldDtVx x ∧
    decode (wordXKK 0xF x 0x18) = .ldStVx x ∧
    (∃ t, exec (.ldVxDt x) s = .next t ∧ t.getV x = s.dt ∧ changesOnly s t (fun e => e = .reg x)) ∧
    (∃ t, exec (.ldDtVx x) s = .next t ∧ t.dt = s.getV x ∧ changesOnly s t (fun e => e = .delay)) ∧
    (∃ t, exec (.ldStVx x) s = .next t ∧ t.st = s.getV x ∧ changesOnly s t (fun e => e = .sound))

/-- `Tick` (60_exceptions.md R270): each timer down by one unless it is zero, independently, faulted or not. -/
def Obligations.TickCountsDown : Prop :=
  ∀ s : State, ∃ t, event .tick s = .next t ∧ t.dt.toNat = s.dt.toNat - 1 ∧ t.st.toNat = s.st.toNat - 1 ∧
    changesOnly s t (fun e => e = .delay ∨ e = .sound)

/-- A timer loaded with `v` reaches 0 after exactly `v` ticks and stays 0 (60_exceptions.md R271). -/
def Obligations.TimersReachZero : Prop :=
  ∀ (s : State) (n : Nat), ∃ t, runEvents (List.replicate n .tick) s = .next t ∧
    t.dt.toNat = s.dt.toNat - n ∧ t.st.toNat = s.st.toNat - n ∧ changesOnly s t (fun e => e = .delay ∨ e = .sound)

/-- The delay timer never rises but by `LD DT, Vx`, a debug poke or, to zero, a reset (70_reset_and_hazards.md R310). -/
def Obligations.DelayTimerOnlyFalls : Prop :=
  ∀ (e : Event) (s t : State), event e s = .next t →
    (e = .step → ∀ x, decode (Memory.fetchWord s.mem s.pc.toNat) ≠ .ldDtVx x) → (∀ b, e ≠ .poke (.delay b)) →
    t.dt.toNat ≤ s.dt.toNat

/-- `KeySet(k, v)` (60_exceptions.md R274): one key, nothing else; the debug session's `set-key` is the toggle. -/
def Obligations.KeySetWritesOneKey : Prop :=
  ∀ (k : Fin 16) (v : Bool) (s : State),
    (∃ t, event (.keySet k v) s = .next t ∧ t.keys[k.val] = v ∧ changesOnly s t (fun e => e = .key k)) ∧
    keyToggle k s = keySet k (!s.keys[k.val]) s ∧ (keyToggle k s).keys[k.val] = !s.keys[k.val]

/-- Some 1 bit of the sprite falls on the cell `p`: bit `7 - c` of row `r` on column `(V[x] + c) mod 64` of row
`(V[y] + r) mod 32` (R241, R242). -/
def Sys2Proof.Claims.covers (s : State) (x y : Reg) (n : Nibble) (p : Nat) : Prop :=
  ∃ r c, r < n.toNat ∧ c < 8 ∧ (Memory.read s.mem (s.i.toNat + r)).getLsbD (7 - c) = true ∧
    p = ((s.getV y).toNat + r) % 32 * 64 + ((s.getV x).toNat + c) % 64

/-- The dirty handshake (60_exceptions.md R277): `CLS`, and `DRW` when some cell is covered, set the flag; no step clears it; a
step that changes it runs one of the two; `DirtyClear` clears it and nothing else, after the presenter's read as one event. -/
def Obligations.DirtyIsSetByCoreClearedByPresenter : Prop :=
  (∀ s : State, ∃ t, event .dirtyClear s = .next t ∧ t.dirty = false ∧ changesOnly s t (fun e => e = .dirty) ∧
    present s = ((s.fb, s.dirty), t)) ∧
  (∀ s t : State, step s = .next t → s.dirty = true → t.dirty = true) ∧
  (∀ (g : Nibble) (s : State), ∃ t, exec (.cls g) s = .next t ∧ t.dirty = true) ∧
  (∀ (x y : Reg) (n : Nibble) (s : State), s.i.toNat + n.toNat - 1 ≤ 0xFFF → (∃ p, covers s x y n p) →
    ∃ t, exec (.drw x y n) s = .next t ∧ t.dirty = true) ∧
  (∀ s t : State, step s = .next t → t.dirty ≠ s.dirty →
    (∃ g, decode (Memory.fetchWord s.mem s.pc.toNat) = .cls g) ∨
    ∃ x y n, decode (Memory.fetchWord s.mem s.pc.toNat) = .drw x y n)

/-- `HostPoke` writes the one field it names, and that field takes the value (60_exceptions.md R281). -/
def Obligations.PokeWritesOneField : Prop :=
  ∀ s : State,
    (∀ r b, ∃ t, event (.poke (.reg r b)) s = .next t ∧ t.getV r = b ∧ changesOnly s t (fun e => e = .reg r)) ∧
    (∀ w, ∃ t, event (.poke (.index w)) s = .next t ∧ t.i = w ∧ changesOnly s t (fun e => e = .index)) ∧
    (∀ w, ∃ t, event (.poke (.pc w)) s = .next t ∧ t.pc = w ∧ changesOnly s t (fun e => e = .pc)) ∧
    (∀ b, ∃ t, event (.poke (.delay b)) s = .next t ∧ t.dt = b ∧ changesOnly s t (fun e => e = .delay)) ∧
    (∀ b, ∃ t, event (.poke (.sound b)) s = .next t ∧ t.st = b ∧ changesOnly s t (fun e => e = .sound)) ∧
    (∀ (a : Fin 4096) b, ∃ t, event (.poke (.mem a b)) s = .next t ∧ Memory.read t.mem a.val = b ∧
      changesOnly s t (fun e => e = .byte a.val))

/-! ## Display (45_display.md) -/

/-- `CLS` (R240): every cell off, `dirty` set in every case. -/
def Obligations.ClearScreenBlanksAndMarks : Prop :=
  ∀ (g : Nibble) (s : State),
    decode 0x00E0 = .cls 0 ∧
    ∃ t, exec (.cls g) s = .next t ∧ (∀ p, p < 2048 → FrameBuffer.cell t.fb p = false) ∧ t.dirty = true ∧
      changesOnly s t (fun e => e = .dirty ∨ ∃ p, e = .cell p)

/-- `DRW Vx, Vy, n` (R241), cell by cell: a covered cell is inverted, any other stays; `VF` is 1 iff a covered cell was on;
`dirty` is set iff some cell is covered and is never cleared; out of range it faults and nothing is drawn; `n = 0` draws
nothing whatever `I` is. -/
def Obligations.DrawXorsCoveredCells : Prop :=
  ∀ (x y : Reg) (n : Nibble) (s : State),
    decode (wordXYN 0xD x y n.toNat) = .drw x y n ∧
    (n ≠ 0 → s.i.toNat + n.toNat - 1 > 0xFFF →
      ∃ t, exec (.drw x y n) s = .next t ∧ faultedAs s t .dataAddressOutOfRange (max s.i.toNat 0x1000)) ∧
    (n = 0 ∨ s.i.toNat + n.toNat - 1 ≤ 0xFFF →
      ∃ t, exec (.drw x y n) s = .next t ∧
        (∀ p, p < 2048 →
          (covers s x y n p → FrameBuffer.cell t.fb p = !FrameBuffer.cell s.fb p) ∧
          (¬ covers s x y n p → FrameBuffer.cell t.fb p = FrameBuffer.cell s.fb p)) ∧
        ((∃ p, covers s x y n p ∧ FrameBuffer.cell s.fb p = true) → t.getV 15 = 1) ∧
        ((¬ ∃ p, covers s x y n p ∧ FrameBuffer.cell s.fb p = true) → t.getV 15 = 0) ∧
        (t.dirty = true ↔ s.dirty = true ∨ ∃ p, covers s x y n p) ∧
        changesOnly s t (fun e => e = .reg 15 ∨ e = .dirty ∨ ∃ p, e = .cell p))

/-- Drawing the same sprite twice at the same place restores the buffer, and the second draw reports a collision iff the first
one lit some covered cell: where it found none lit, iff the sprite has a 1 bit (R241; log entry 13 on the spec's shorter words).
"The same place" is a premise: `VF` may itself be a coordinate. -/
def Obligations.DrawingTwiceRestores : Prop :=
  ∀ (x y : Reg) (n : Nibble) (s t : State), (n = 0 ∨ s.i.toNat + n.toNat - 1 ≤ 0xFFF) →
    exec (.drw x y n) s = .next t → t.getV x = s.getV x → t.getV y = s.getV y →
    ∃ u, exec (.drw x y n) t = .next u ∧
      (∀ p, p < 2048 → FrameBuffer.cell u.fb p = FrameBuffer.cell s.fb p) ∧
      (u.getV 15 = 1 ↔ ∃ p, covers s x y n p ∧ FrameBuffer.cell s.fb p = false) ∧
      ((∀ p, covers s x y n p → FrameBuffer.cell s.fb p = false) → (u.getV 15 = 1 ↔ ∃ p, covers s x y n p))

/-! ## Decode gaps (40_execution_cycle.md R133, R134) -/

/-- A gap word and `SYS` emit their diagnostic, with the instruction's address and the word, and change nothing else: `pc`
stays past the word and no fault is raised. The list of diagnostics is the model's own record of that output (log entry 6). -/
def Obligations.GapsOnlyEmitDiagnostic : Prop :=
  (∀ (w : Word) (s : State), decode w = .gap w →
    ∃ t, exec (.gap w) s = .next t ∧ t.diags = s.diags ++ [{ pcAt := s.pc - 2, word := w }] ∧
      changesOnly s t (fun e => e = .diags)) ∧
  (∀ (nnn : BitVec 12) (s : State), nnn.toNat % 0x100 ≠ 0xE0 → nnn.toNat % 0x100 ≠ 0xEE →
    decode (wordNNN 0 nnn) = .sys nnn ∧
    ∃ t, exec (.sys nnn) s = .next t ∧ t.diags = s.diags ++ [{ pcAt := s.pc - 2, word := wordNNN 0 nnn }] ∧
      changesOnly s t (fun e => e = .diags))

/-- Running into zeroed memory with no other event between the steps (`core.run`, log entry 3): one diagnostic no-op a step, each
recorded in the model's list (log entry 6), until `pc = 0x1000` (R134), or `0xFFF` from an odd `pc`, where the next step's fetch
faults (R130). -/
def Obligations.ZeroedMemoryRunsToFetchFault : Prop :=
  ∀ (s : State) (k : Nat) (e : Word), s.fault = none → e = 0x1000 ∨ e = 0xFFF → s.pc.toNat + 2 * k = e.toNat →
    (∀ a, s.pc.toNat ≤ a → a < 0x1000 → Memory.read s.mem a = 0) →
    ∃ t u, core.run k s = .next t ∧ t.pc = e ∧ t.diags.length = s.diags.length + k ∧
      changesOnly s t (fun e => e = .pc ∨ e = .diags) ∧ core.run (k + 1) s = .next u ∧
      u.fault = some { cause := .fetchOutOfRange, pcAt := e, info := e.toNat }

/-! ## Reset (70_reset_and_hazards.md) -/

/-- `Reset(image)` from any state, a faulted one too (R302, R300, 10_state.md R35): every field zeroed, `pc` at `0x200`, the
image overlaid from `0x200`, the font below, zero elsewhere; an image that does not fit is refused. -/
def Obligations.ResetLoadsImage : Prop :=
  ∀ (image : List Byte) (s : State),
    (image.length > 3584 → event (.reset image) s = .refused (.imageTooLong image.length)) ∧
    (image.length ≤ 3584 →
      ∃ t, event (.reset image) s = .next t ∧
        (∀ r, t.getV r = 0) ∧ t.i = 0 ∧ t.pc = 0x200 ∧ t.sp = 0 ∧ (∀ j : Fin 16, t.stack[j.val] = 0) ∧
        t.dt = 0 ∧ t.st = 0 ∧ (∀ k : Fin 16, t.keys[k.val] = false) ∧
        (∀ p, p < 2048 → FrameBuffer.cell t.fb p = false) ∧ t.dirty = false ∧ t.fault = none ∧
        (∀ a, a < 0x50 → Memory.read t.mem a = fontBytes.getD a 0) ∧
        (∀ a, 0x50 ≤ a → a < 0x200 → Memory.read t.mem a = 0) ∧
        (∀ k, k < image.length → Memory.read t.mem (0x200 + k) = image.getD k 0) ∧
        (∀ a, 0x200 + image.length ≤ a → a < 0x1000 → Memory.read t.mem a = 0))

/-! ## Who writes what, and who reads what -/

/-- Per element of the state, what may write it (10_state.md R36): the instructions a step may run, and the other events. -/
def Obligations.WritersOfEachElement : Prop :=
  (∀ s t : State, step s = .next t →
    let i := decode (Memory.fetchWord s.mem s.pc.toNat)
    (∀ r, t.getV r ≠ s.getV r →
      destination i = some r ∨ (writesFlag i = true ∧ r = 15) ∨ ∃ x, i = .ldVxMem x ∧ r ≤ x) ∧
    (t.i ≠ s.i → (∃ nnn, i = .ldI nnn) ∨ (∃ x, i = .addI x) ∨ ∃ x, i = .ldF x) ∧
    (t.sp ≠ s.sp ∨ t.stack ≠ s.stack → (∃ nnn, i = .call nnn) ∨ ∃ g, i = .ret g) ∧
    (t.dt ≠ s.dt → ∃ x, i = .ldDtVx x) ∧
    (t.st ≠ s.st → ∃ x, i = .ldStVx x) ∧
    t.keys = s.keys ∧
    (t.fb ≠ s.fb → (∃ g, i = .cls g) ∨ ∃ x y n, i = .drw x y n) ∧
    (t.dirty ≠ s.dirty → t.dirty = true ∧ ((∃ g, i = .cls g) ∨ ∃ x y n, i = .drw x y n)) ∧
    (t.mem ≠ s.mem → (∃ x, i = .ldB x) ∨ ∃ x, i = .ldMemVx x) ∧
    (t.fault ≠ s.fault → s.fault = none ∧ expectedFault s ≠ none)) ∧
  (∀ s : State, changesOnly s (tick s) (fun e => e = .delay ∨ e = .sound)) ∧
  (∀ k v (s : State), changesOnly s (keySet k v s) (fun e => e = .key k)) ∧
  (∀ s : State, changesOnly s (dirtyClear s) (fun e => e = .dirty)) ∧
  (∀ p (s : State), changesOnly s (poke p s)
    (fun e => (∃ r, e = .reg r) ∨ e = .index ∨ e = .pc ∨ e = .delay ∨ e = .sound ∨ ∃ a, e = .byte a))

/-- No instruction reads `ST` (10_state.md R26), `dirty` (R29) or the diagnostics (40_execution_cycle.md R133): with another
value in one of them a step does the same to everything else. -/
def Obligations.SoundDirtyAndDiagnosticsAreUnread : Prop :=
  ∀ (s t : State) (b : Byte) (d : Bool) (l : List Diag), step s = .next t →
    (∃ u, step { s with st := b } = .next u ∧ changesOnly t u (fun e => e = .sound)) ∧
    (∃ u, step { s with dirty := d } = .next u ∧ changesOnly t u (fun e => e = .dirty)) ∧
    (∃ u, step { s with diags := l } = .next u ∧ changesOnly t u (fun e => e = .diags))

/-- Only `RND` and `LD Vx, K` read a draw: every other instruction does the same whatever free values are still to come, and
leaves their count alone (40_execution_cycle.md R136; the count is the model's own, log entries 4 and 5). -/
def Obligations.OnlyRandomAndWaitReadDraws : Prop :=
  ∀ (i : Instr) (s t : State) (d : Nat), (∀ x kk, i ≠ .rnd x kk) → (∀ x, i ≠ .ldVxK x) → exec i s = .next t →
    t.draws = s.draws ∧ exec i { s with draws := d } = .next { t with draws := d }
end

