-- ==== Sys2Proof/Laws/Decode.lean ====
section
/-! SUPPORT. What the fields of a word and the encoder's formats are as numbers (30_encoding.md R91, R92): arithmetic on these
replaces arithmetic on bits in proofs about decoding. -/

namespace Sys2Proof

theorem toNat_opField (w : Word) : (opField w).toNat = w.toNat / 0x1000 := by
  simp [opField, BitVec.extractLsb'_toNat, Nat.shiftRight_eq_div_pow]; omega

theorem toNat_xBits (w : Word) : (xBits w).toNat = w.toNat / 0x100 % 16 := by
  simp [xBits, BitVec.extractLsb'_toNat, Nat.shiftRight_eq_div_pow]

theorem toNat_yBits (w : Word) : (yBits w).toNat = w.toNat / 0x10 % 16 := by
  simp [yBits, BitVec.extractLsb'_toNat, Nat.shiftRight_eq_div_pow]

theorem toNat_nField (w : Word) : (nField w).toNat = w.toNat % 16 := by
  simp [nField, BitVec.extractLsb'_toNat]

theorem toNat_kkField (w : Word) : (kkField w).toNat = w.toNat % 256 := by
  simp [kkField, BitVec.extractLsb'_toNat]

theorem toNat_nnnField (w : Word) : (nnnField w).toNat = w.toNat % 4096 := by
  simp [nnnField, BitVec.extractLsb'_toNat]

@[simp] theorem val_xField (w : Word) : (xField w).val = (xBits w).toNat := rfl

@[simp] theorem val_yField (w : Word) : (yField w).val = (yBits w).toNat := rfl

@[simp] theorem val_regOfBits (b : Nibble) : (regOfBits b).val = b.toNat := rfl

@[simp] theorem toNat_regBits (x : Reg) : (regBits x).toNat = x.val := by
  have := x.isLt
  simp [regBits]

theorem toNat_join12 (a : Nibble) (b : BitVec 12) : BitVec.toNat (w := 16) (a ++ b) = 0x1000 * a.toNat + b.toNat := by
  have h := BitVec.toNat_append a b
  rw [← Nat.shiftLeft_add_eq_or_of_lt b.isLt, Nat.shiftLeft_eq] at h
  exact Eq.trans h (by omega)

theorem toNat_join8 (a : Nibble) (b : Byte) : BitVec.toNat (w := 12) (a ++ b) = 0x100 * a.toNat + b.toNat := by
  have h := BitVec.toNat_append a b
  rw [← Nat.shiftLeft_add_eq_or_of_lt b.isLt, Nat.shiftLeft_eq] at h
  exact Eq.trans h (by omega)

theorem toNat_join4 (a b : Nibble) : BitVec.toNat (w := 8) (a ++ b) = 0x10 * a.toNat + b.toNat := by
  have h := BitVec.toNat_append a b
  rw [← Nat.shiftLeft_add_eq_or_of_lt b.isLt, Nat.shiftLeft_eq] at h
  exact Eq.trans h (by omega)

theorem toNat_encodeNNN (o : Nibble) (nnn : BitVec 12) : (encodeNNN o nnn).toNat = 0x1000 * o.toNat + nnn.toNat :=
  toNat_join12 o nnn

theorem toNat_encodeXKK (o : Nibble) (x : Reg) (kk : Byte) :
    (encodeXKK o x kk).toNat = 0x1000 * o.toNat + 0x100 * x.val + kk.toNat := by
  rw [encodeXKK, toNat_join12, toNat_join8, toNat_regBits]; omega

theorem toNat_encodeXYN (o : Nibble) (x y : Reg) (n : Nibble) :
    (encodeXYN o x y n).toNat = 0x1000 * o.toNat + 0x100 * x.val + 0x10 * y.val + n.toNat := by
  rw [encodeXYN, toNat_join12, toNat_join8, toNat_join4, toNat_regBits, toNat_regBits]; omega

theorem toNat_encodeZ (g : Nibble) (ss : Byte) : (encodeZ g ss).toNat = 0x100 * g.toNat + ss.toNat := by
  rw [encodeZ, toNat_join12, toNat_join8]; simp

/-- A word from its two bytes, as a number (20_memory.md R62). -/
theorem toNat_ofBytes (hi lo : Byte) : (Word.ofBytes hi lo).toNat = 256 * hi.toNat + lo.toNat := by
  have h := BitVec.toNat_append hi lo
  rw [← Nat.shiftLeft_add_eq_or_of_lt lo.isLt, Nat.shiftLeft_eq] at h
  exact Eq.trans h (by omega)

end Sys2Proof
end

