-- ==== Sys2Proof/Laws/Memory.lean ====
section
/-! SUPPORT. The laws of memory: read after write, the canonical form, and that it makes equal memories equal lists. -/

namespace Sys2Proof.Machine

theorem read_insertCell (c : Host.Cell) (m : Memory) (a : Nat) (h : ∀ d ∈ m, d.1 ≠ c.1) :
    Memory.read (Memory.insertCell c m) a = if c.1 = a then c.2 else Memory.read m a := by
  induction m with
  | nil => simp [Memory.insertCell, Memory.read]
  | cons d m ih =>
    have hd := h d (by simp)
    have ih := ih (fun e he => h e (by simp [he]))
    by_cases hlt : c.1 < d.1
    · simp [Memory.insertCell, hlt, Memory.read]
    · by_cases hda : d.1 = a
      · have hca : c.1 ≠ a := fun e => hd (hda.trans e.symm)
        rw [Memory.insertCell, if_neg hlt, if_neg hca]
        simp [Memory.read, hda]
      · simp [Memory.insertCell, hlt, Memory.read, hda, ih]

theorem read_filter_ne (m : Memory) (a b : Nat) (h : b ≠ a) :
    Memory.read (m.filter (fun c => c.1 != a)) b = Memory.read m b := by
  induction m with
  | nil => rfl
  | cons c m ih =>
    by_cases hca : c.1 = a
    · have hcb : c.1 ≠ b := fun e => h (e.symm.trans hca)
      simp [hca, ih, Memory.read, Ne.symm h]
    · simp [hca, Memory.read, ih]

theorem read_filter_self (m : Memory) (a : Nat) :
    Memory.read (m.filter (fun c => c.1 != a)) a = Memory.resetByte a := by
  induction m with
  | nil => rfl
  | cons c m ih =>
    by_cases hca : c.1 = a
    · simp [hca, ih]
    · simp [hca, Memory.read, ih]

/-- Everything a write does to what memory reads as, whatever the list. -/
theorem read_write (m : Memory) (a b : Nat) (v : Byte) :
    Memory.read (Memory.write m a v) b = if a = b then v else Memory.read m b := by
  have hne : ∀ d ∈ m.filter (fun c => c.1 != a), d.1 ≠ a := by simp [List.mem_filter]
  unfold Memory.write
  by_cases hv : v = Memory.resetByte a
  · by_cases hab : a = b
    · subst hab; simp [hv, read_filter_self]
    · simp [hv, hab, read_filter_ne m a b (Ne.symm hab)]
  · by_cases hab : a = b
    · subst hab; simp [hv, read_insertCell (a, v) _ _ hne]
    · simp [hv, hab, read_insertCell (a, v) _ _ hne, read_filter_ne m a b (Ne.symm hab)]

@[simp] theorem read_write_same (m : Memory) (a : Nat) (v : Byte) :
    Memory.read (Memory.write m a v) a = v := by simp [read_write]

theorem read_write_other (m : Memory) (a b : Nat) (v : Byte) (h : a ≠ b) :
    Memory.read (Memory.write m a v) b = Memory.read m b := by simp [read_write, h]

/-- Everything a block store does: inside the block the stored bytes, outside it what was there. -/
theorem read_storeBytes (bs : List Byte) : ∀ (m : Memory) (a b : Nat),
    Memory.read (Memory.storeBytes m a bs) b =
      if a ≤ b ∧ b < a + bs.length then bs.getD (b - a) 0 else Memory.read m b := by
  induction bs with
  | nil => intro m a b; simp [Memory.storeBytes]
  | cons x bs ih =>
    intro m a b
    rw [Memory.storeBytes, ih, read_write]
    simp only [List.length_cons]
    by_cases hab : a = b
    · subst hab; simp
    · by_cases h : a + 1 ≤ b ∧ b < a + 1 + bs.length
      · have hk : b - a = (b - (a + 1)) + 1 := by omega
        have h' : a ≤ b ∧ b < a + (bs.length + 1) := by omega
        rw [if_pos h, if_pos h', hk, List.getD_cons_succ]
      · have h' : ¬ (a ≤ b ∧ b < a + (bs.length + 1)) := by omega
        rw [if_neg h, if_neg h', if_neg hab]

@[simp] theorem length_loadBytes (m : Memory) (a n : Nat) : (Memory.loadBytes m a n).length = n := by
  simp [Memory.loadBytes]

theorem loadBytes_getElem (m : Memory) (a n k : Nat) (h : k < (Memory.loadBytes m a n).length) :
    (Memory.loadBytes m a n)[k] = Memory.read m (a + k) := by
  simp [Memory.loadBytes]

theorem mem_insertCell (c d : Host.Cell) (m : Memory) : d ∈ Memory.insertCell c m ↔ d = c ∨ d ∈ m := by
  induction m with
  | nil => simp [Memory.insertCell]
  | cons e m ih =>
    by_cases h : c.1 < e.1
    · simp [Memory.insertCell, h]
    · simp only [Memory.insertCell, h, if_false, List.mem_cons, ih]; tauto

theorem insertCell_sorted (c : Host.Cell) (m : Memory) (h : m.Pairwise (fun c d => c.1 < d.1))
    (hne : ∀ d ∈ m, d.1 ≠ c.1) : (Memory.insertCell c m).Pairwise (fun c d => c.1 < d.1) := by
  induction m with
  | nil => simp [Memory.insertCell]
  | cons e m ih =>
    rw [List.pairwise_cons] at h
    by_cases hlt : c.1 < e.1
    · simp only [Memory.insertCell, hlt, if_true, List.pairwise_cons, List.mem_cons]
      refine ⟨?_, h.1, h.2⟩
      rintro d (rfl | hd)
      · exact hlt
      · exact hlt.trans (h.1 d hd)
    · have hec : e.1 < c.1 := by have := hne e (by simp); omega
      simp only [Memory.insertCell, hlt, if_false, List.pairwise_cons]
      refine ⟨?_, ih h.2 (fun d hd => hne d (by simp [hd]))⟩
      intro d hd
      rcases (mem_insertCell c d m).1 hd with rfl | hd
      · exact hec
      · exact h.1 d hd

/-- A write inside memory keeps the canonical form. -/
theorem write_wf (m : Memory) (a : Nat) (v : Byte) (h : Memory.wf m) (ha : a < Config.memBytes) :
    Memory.wf (Memory.write m a v) := by
  have hs : (m.filter (fun c => c.1 != a)).Pairwise (fun c d => c.1 < d.1) := h.1.filter _
  unfold Memory.write
  by_cases hv : v = Memory.resetByte a
  · simp only [hv, if_true]
    exact ⟨hs, fun c hc => h.2 c (List.mem_filter.1 hc).1⟩
  · simp only [hv, if_false]
    refine ⟨insertCell_sorted (a, v) _ hs (fun d hd => by simpa using (List.mem_filter.1 hd).2), fun c hc => ?_⟩
    rcases (mem_insertCell _ _ _).1 hc with rfl | hc
    · exact ⟨ha, hv⟩
    · exact h.2 c (List.mem_filter.1 hc).1

/-- A block store inside memory keeps the canonical form. -/
theorem storeBytes_wf (bs : List Byte) : ∀ (m : Memory) (a : Nat), Memory.wf m →
    a + bs.length ≤ Config.memBytes → Memory.wf (Memory.storeBytes m a bs) := by
  induction bs with
  | nil => intro m a h _; exact h
  | cons b bs ih =>
    intro m a h ha
    rw [List.length_cons] at ha
    exact ih _ _ (write_wf m a b h (by omega)) (by omega)

/-- Empty memory is in canonical form. -/
theorem nil_wf : Memory.wf [] := ⟨List.Pairwise.nil, fun _ h => absurd h (List.not_mem_nil)⟩

end Sys2Proof.Machine
end

