-- ==== Sys2Proof/Laws/State.lean ====
section
/-! SUPPORT. One lemma per field per update of the state, each true by `rfl`, so that no proof unfolds a record update. -/

namespace Sys2Proof.Machine

@[simp] theorem setV_v (s : State) (r : Reg) (b : Byte) : (s.setV r b).v = s.v.set r.val b := rfl
@[simp] theorem setV_i (s : State) (r : Reg) (b : Byte) : (s.setV r b).i = s.i := rfl
@[simp] theorem setV_pc (s : State) (r : Reg) (b : Byte) : (s.setV r b).pc = s.pc := rfl
@[simp] theorem setV_stack (s : State) (r : Reg) (b : Byte) : (s.setV r b).stack = s.stack := rfl
@[simp] theorem setV_sp (s : State) (r : Reg) (b : Byte) : (s.setV r b).sp = s.sp := rfl
@[simp] theorem setV_dt (s : State) (r : Reg) (b : Byte) : (s.setV r b).dt = s.dt := rfl
@[simp] theorem setV_st (s : State) (r : Reg) (b : Byte) : (s.setV r b).st = s.st := rfl
@[simp] theorem setV_keys (s : State) (r : Reg) (b : Byte) : (s.setV r b).keys = s.keys := rfl
@[simp] theorem setV_fb (s : State) (r : Reg) (b : Byte) : (s.setV r b).fb = s.fb := rfl
@[simp] theorem setV_dirty (s : State) (r : Reg) (b : Byte) : (s.setV r b).dirty = s.dirty := rfl
@[simp] theorem setV_mem (s : State) (r : Reg) (b : Byte) : (s.setV r b).mem = s.mem := rfl
@[simp] theorem setV_fault (s : State) (r : Reg) (b : Byte) : (s.setV r b).fault = s.fault := rfl
@[simp] theorem setV_draws (s : State) (r : Reg) (b : Byte) : (s.setV r b).draws = s.draws := rfl
@[simp] theorem setV_diags (s : State) (r : Reg) (b : Byte) : (s.setV r b).diags = s.diags := rfl

@[simp] theorem advance_v (s : State) : (s.advance).v = s.v := rfl
@[simp] theorem advance_i (s : State) : (s.advance).i = s.i := rfl
@[simp] theorem advance_pc (s : State) : (s.advance).pc = s.pc + 2 := rfl
@[simp] theorem advance_stack (s : State) : (s.advance).stack = s.stack := rfl
@[simp] theorem advance_sp (s : State) : (s.advance).sp = s.sp := rfl
@[simp] theorem advance_dt (s : State) : (s.advance).dt = s.dt := rfl
@[simp] theorem advance_st (s : State) : (s.advance).st = s.st := rfl
@[simp] theorem advance_keys (s : State) : (s.advance).keys = s.keys := rfl
@[simp] theorem advance_fb (s : State) : (s.advance).fb = s.fb := rfl
@[simp] theorem advance_dirty (s : State) : (s.advance).dirty = s.dirty := rfl
@[simp] theorem advance_mem (s : State) : (s.advance).mem = s.mem := rfl
@[simp] theorem advance_fault (s : State) : (s.advance).fault = s.fault := rfl
@[simp] theorem advance_draws (s : State) : (s.advance).draws = s.draws := rfl
@[simp] theorem advance_diags (s : State) : (s.advance).diags = s.diags := rfl

@[simp] theorem latchFault_v (f : Fault) (a : Word) (n : Nat) (s : State) : (latchFault f a n s).v = s.v := rfl
@[simp] theorem latchFault_i (f : Fault) (a : Word) (n : Nat) (s : State) : (latchFault f a n s).i = s.i := rfl
@[simp] theorem latchFault_pc (f : Fault) (a : Word) (n : Nat) (s : State) : (latchFault f a n s).pc = a := rfl
@[simp] theorem latchFault_stack (f : Fault) (a : Word) (n : Nat) (s : State) : (latchFault f a n s).stack = s.stack := rfl
@[simp] theorem latchFault_sp (f : Fault) (a : Word) (n : Nat) (s : State) : (latchFault f a n s).sp = s.sp := rfl
@[simp] theorem latchFault_dt (f : Fault) (a : Word) (n : Nat) (s : State) : (latchFault f a n s).dt = s.dt := rfl
@[simp] theorem latchFault_st (f : Fault) (a : Word) (n : Nat) (s : State) : (latchFault f a n s).st = s.st := rfl
@[simp] theorem latchFault_keys (f : Fault) (a : Word) (n : Nat) (s : State) : (latchFault f a n s).keys = s.keys := rfl
@[simp] theorem latchFault_fb (f : Fault) (a : Word) (n : Nat) (s : State) : (latchFault f a n s).fb = s.fb := rfl
@[simp] theorem latchFault_dirty (f : Fault) (a : Word) (n : Nat) (s : State) : (latchFault f a n s).dirty = s.dirty := rfl
@[simp] theorem latchFault_mem (f : Fault) (a : Word) (n : Nat) (s : State) : (latchFault f a n s).mem = s.mem := rfl
@[simp] theorem latchFault_fault (f : Fault) (a : Word) (n : Nat) (s : State) : (latchFault f a n s).fault = some { cause := f, pcAt := a, info := n } := rfl
@[simp] theorem latchFault_draws (f : Fault) (a : Word) (n : Nat) (s : State) : (latchFault f a n s).draws = s.draws := rfl
@[simp] theorem latchFault_diags (f : Fault) (a : Word) (n : Nat) (s : State) : (latchFault f a n s).diags = s.diags := rfl

@[simp] theorem tick_v (s : State) : (tick s).v = s.v := rfl
@[simp] theorem tick_i (s : State) : (tick s).i = s.i := rfl
@[simp] theorem tick_pc (s : State) : (tick s).pc = s.pc := rfl
@[simp] theorem tick_stack (s : State) : (tick s).stack = s.stack := rfl
@[simp] theorem tick_sp (s : State) : (tick s).sp = s.sp := rfl
@[simp] theorem tick_dt (s : State) : (tick s).dt = countDown s.dt := rfl
@[simp] theorem tick_st (s : State) : (tick s).st = countDown s.st := rfl
@[simp] theorem tick_keys (s : State) : (tick s).keys = s.keys := rfl
@[simp] theorem tick_fb (s : State) : (tick s).fb = s.fb := rfl
@[simp] theorem tick_dirty (s : State) : (tick s).dirty = s.dirty := rfl
@[simp] theorem tick_mem (s : State) : (tick s).mem = s.mem := rfl
@[simp] theorem tick_fault (s : State) : (tick s).fault = s.fault := rfl
@[simp] theorem tick_draws (s : State) : (tick s).draws = s.draws := rfl
@[simp] theorem tick_diags (s : State) : (tick s).diags = s.diags := rfl

@[simp] theorem keySet_v (k : Fin 16) (b : Bool) (s : State) : (keySet k b s).v = s.v := rfl
@[simp] theorem keySet_i (k : Fin 16) (b : Bool) (s : State) : (keySet k b s).i = s.i := rfl
@[simp] theorem keySet_pc (k : Fin 16) (b : Bool) (s : State) : (keySet k b s).pc = s.pc := rfl
@[simp] theorem keySet_stack (k : Fin 16) (b : Bool) (s : State) : (keySet k b s).stack = s.stack := rfl
@[simp] theorem keySet_sp (k : Fin 16) (b : Bool) (s : State) : (keySet k b s).sp = s.sp := rfl
@[simp] theorem keySet_dt (k : Fin 16) (b : Bool) (s : State) : (keySet k b s).dt = s.dt := rfl
@[simp] theorem keySet_st (k : Fin 16) (b : Bool) (s : State) : (keySet k b s).st = s.st := rfl
@[simp] theorem keySet_keys (k : Fin 16) (b : Bool) (s : State) : (keySet k b s).keys = s.keys.set k.val b := rfl
@[simp] theorem keySet_fb (k : Fin 16) (b : Bool) (s : State) : (keySet k b s).fb = s.fb := rfl
@[simp] theorem keySet_dirty (k : Fin 16) (b : Bool) (s : State) : (keySet k b s).dirty = s.dirty := rfl
@[simp] theorem keySet_mem (k : Fin 16) (b : Bool) (s : State) : (keySet k b s).mem = s.mem := rfl
@[simp] theorem keySet_fault (k : Fin 16) (b : Bool) (s : State) : (keySet k b s).fault = s.fault := rfl
@[simp] theorem keySet_draws (k : Fin 16) (b : Bool) (s : State) : (keySet k b s).draws = s.draws := rfl
@[simp] theorem keySet_diags (k : Fin 16) (b : Bool) (s : State) : (keySet k b s).diags = s.diags := rfl

@[simp] theorem dirtyClear_v (s : State) : (dirtyClear s).v = s.v := rfl
@[simp] theorem dirtyClear_i (s : State) : (dirtyClear s).i = s.i := rfl
@[simp] theorem dirtyClear_pc (s : State) : (dirtyClear s).pc = s.pc := rfl
@[simp] theorem dirtyClear_stack (s : State) : (dirtyClear s).stack = s.stack := rfl
@[simp] theorem dirtyClear_sp (s : State) : (dirtyClear s).sp = s.sp := rfl
@[simp] theorem dirtyClear_dt (s : State) : (dirtyClear s).dt = s.dt := rfl
@[simp] theorem dirtyClear_st (s : State) : (dirtyClear s).st = s.st := rfl
@[simp] theorem dirtyClear_keys (s : State) : (dirtyClear s).keys = s.keys := rfl
@[simp] theorem dirtyClear_fb (s : State) : (dirtyClear s).fb = s.fb := rfl
@[simp] theorem dirtyClear_dirty (s : State) : (dirtyClear s).dirty = false := rfl
@[simp] theorem dirtyClear_mem (s : State) : (dirtyClear s).mem = s.mem := rfl
@[simp] theorem dirtyClear_fault (s : State) : (dirtyClear s).fault = s.fault := rfl
@[simp] theorem dirtyClear_draws (s : State) : (dirtyClear s).draws = s.draws := rfl
@[simp] theorem dirtyClear_diags (s : State) : (dirtyClear s).diags = s.diags := rfl

@[simp] theorem withFetchWord_v (s : State) (n w : Nat) : (s.withFetchWord n w).v = s.v := rfl
@[simp] theorem withFetchWord_i (s : State) (n w : Nat) : (s.withFetchWord n w).i = s.i := rfl
@[simp] theorem withFetchWord_pc (s : State) (n w : Nat) : (s.withFetchWord n w).pc = s.pc := rfl
@[simp] theorem withFetchWord_stack (s : State) (n w : Nat) : (s.withFetchWord n w).stack = s.stack := rfl
@[simp] theorem withFetchWord_sp (s : State) (n w : Nat) : (s.withFetchWord n w).sp = s.sp := rfl
@[simp] theorem withFetchWord_dt (s : State) (n w : Nat) : (s.withFetchWord n w).dt = s.dt := rfl
@[simp] theorem withFetchWord_st (s : State) (n w : Nat) : (s.withFetchWord n w).st = s.st := rfl
@[simp] theorem withFetchWord_keys (s : State) (n w : Nat) : (s.withFetchWord n w).keys = s.keys := rfl
@[simp] theorem withFetchWord_fb (s : State) (n w : Nat) : (s.withFetchWord n w).fb = s.fb := rfl
@[simp] theorem withFetchWord_dirty (s : State) (n w : Nat) : (s.withFetchWord n w).dirty = s.dirty := rfl
@[simp] theorem withFetchWord_mem (s : State) (n w : Nat) : (s.withFetchWord n w).mem = Memory.storeBytes s.mem s.pc.toNat [(tableWord n w).high, (tableWord n w).low] := rfl
@[simp] theorem withFetchWord_fault (s : State) (n w : Nat) : (s.withFetchWord n w).fault = s.fault := rfl
@[simp] theorem withFetchWord_draws (s : State) (n w : Nat) : (s.withFetchWord n w).draws = s.draws := rfl
@[simp] theorem withFetchWord_diags (s : State) (n w : Nat) : (s.withFetchWord n w).diags = s.diags := rfl

@[simp] theorem reset_v : State.reset.v = Vector.replicate 16 0 := rfl
@[simp] theorem reset_i : State.reset.i = 0 := rfl
@[simp] theorem reset_pc : State.reset.pc = 0x200 := rfl
@[simp] theorem reset_stack : State.reset.stack = Vector.replicate 16 0 := rfl
@[simp] theorem reset_sp : State.reset.sp = 0 := rfl
@[simp] theorem reset_dt : State.reset.dt = 0 := rfl
@[simp] theorem reset_st : State.reset.st = 0 := rfl
@[simp] theorem reset_keys : State.reset.keys = Vector.replicate 16 false := rfl
@[simp] theorem reset_fb : State.reset.fb = Vector.replicate 32 0 := rfl
@[simp] theorem reset_dirty : State.reset.dirty = false := rfl
@[simp] theorem reset_mem : State.reset.mem = [] := rfl
@[simp] theorem reset_fault : State.reset.fault = none := rfl
@[simp] theorem reset_draws : State.reset.draws = 0 := rfl
@[simp] theorem reset_diags : State.reset.diags = [] := rfl

end Sys2Proof.Machine
end

