-- ==== Sys2Proof/Laws/Ops.lean ====
section
/-! SUPPORT. One lemma per shared operation that says everything it can do. -/

namespace Sys2Proof.Machine

/-! ## Registers -/

@[simp] theorem getV_setV_same (s : State) (r : Reg) (b : Byte) : (s.setV r b).getV r = b := by
  simp [State.getV, State.setV]

theorem getV_setV_other (s : State) (r q : Reg) (b : Byte) (h : r ≠ q) : (s.setV r b).getV q = s.getV q := by
  have : r.val ≠ q.val := fun e => h (Fin.ext e)
  simp [State.getV, State.setV, Vector.getElem_set_ne _ _ this]

/-- Everything a register write does. -/
theorem getV_setV (s : State) (r q : Reg) (b : Byte) :
    (s.setV r b).getV q = if r = q then b else s.getV q := by
  by_cases h : r = q
  · subst h; simp
  · simp [h, getV_setV_other s r q b h]

/-- Everything a block register write does: the registers of the block take its bytes, the others stay. -/
theorem writeRegs_getElem (bs : List Byte) : ∀ (v : Vector Byte 16) (j k : Nat) (hk : k < 16),
    (writeRegs v j bs)[k] = if j ≤ k ∧ k < j + bs.length then bs.getD (k - j) 0 else v[k] := by
  induction bs with
  | nil => intro v j k hk; simp [writeRegs]
  | cons b bs ih =>
    intro v j k hk
    rw [writeRegs, ih]
    simp only [List.length_cons]
    by_cases hjk : j = k
    · subst hjk; simp
    · by_cases h : j + 1 ≤ k ∧ k < j + 1 + bs.length
      · have hkj : k - j = (k - (j + 1)) + 1 := by omega
        have h' : j ≤ k ∧ k < j + (bs.length + 1) := by omega
        rw [if_pos h, if_pos h', hkj, List.getD_cons_succ]
      · have h' : ¬ (j ≤ k ∧ k < j + (bs.length + 1)) := by omega
        rw [if_neg h, if_neg h']
        simp [hjk]

@[simp] theorem length_regsUpTo (s : State) (x : Reg) : (s.regsUpTo x).length = x.val + 1 := by
  simp [State.regsUpTo]

theorem regsUpTo_getD (s : State) (x r : Reg) (h : r ≤ x) : (s.regsUpTo x).getD r.val 0 = s.getV r := by
  have h' : r.val < x.val + 1 := Nat.lt_succ_of_le h
  simp [State.regsUpTo, List.getD_eq_getElem?_getD, h', State.getV]

/-! ## Outcomes -/

/-- A skip answers a next state with `pc` moved by 2 or not, and nothing else changed. -/
theorem skipIf_eq (c : Bool) (s : State) :
    skipIf c s = .next { s with pc := if c then s.pc + 2 else s.pc } := by
  cases c <;> rfl

/-- The range check accepts exactly the ranges inside memory. -/
theorem rangeOk_iff (s : State) (len : Nat) :
    s.rangeOk len = true ↔ len = 0 ∨ s.i.toNat + (len - 1) ≤ 0xFFF := by
  simp only [State.rangeOk, Bool.or_eq_true, beq_iff_eq, decide_eq_true_eq]
  rfl

theorem withRange_ok (len : Nat) (go : State → Result) (s : State) (h : s.rangeOk len = true) :
    withRange len go s = go s := by simp [withRange, h]

theorem withRange_fault (len : Nat) (go : State → Result) (s : State) (h : s.rangeOk len = false) :
    withRange len go s = .next (latchFault .dataAddressOutOfRange (s.pc - 2) (max s.i.toNat 0x1000) s) := by
  simp [withRange, h, raise, State.firstBad, State.instrAddr]

/-- A raised fault is exactly a latch at the instruction's address. -/
theorem raise_eq (f : Fault) (n : Nat) (s : State) : raise f n s = .next (latchFault f (s.pc - 2) n s) := rfl

/-! ## Fetch -/

theorem fetch_stuck (s : State) (h : s.fault ≠ none) : fetch s = .stuck := by simp [fetch, h]

theorem fetch_outOfRange (s : State) (h : s.fault = none) (hp : s.pc.toNat > 0xFFE) : fetch s = .outOfRange := by
  simp [fetch, h, hp]

theorem fetch_word (s : State) (h : s.fetches) : fetch s = .word (Memory.fetchWord s.mem s.pc.toNat) := by
  simp [fetch, h.1, Nat.not_lt.2 h.2]

/-- A word read back from its two bytes is that word. -/
theorem ofBytes_high_low (w : Word) : Word.ofBytes w.high w.low = w := by
  unfold Word.ofBytes Word.high Word.low
  ext i hi
  rw [BitVec.getElem_append]
  by_cases h : i < 8
  · simp [h, BitVec.getLsbD_eq_getElem hi]
  · have : 8 + (i - 8) = i := by omega
    simp [h, this, BitVec.getLsbD_eq_getElem hi]

/-- What `withFetchWord` places is what the next step fetches. -/
theorem fetchWord_withFetchWord (s : State) (n w : Nat) :
    Memory.fetchWord (s.withFetchWord n w).mem s.pc.toNat = tableWord n w := by
  simp [Memory.fetchWord, State.withFetchWord, read_storeBytes, ofBytes_high_low]

/-! ## Keys -/

theorem mem_pressedKeys (keys : Vector Bool 16) (k : Reg) : k ∈ pressedKeys keys ↔ keys[k.val] = true := by
  simp [pressedKeys]

/-- The key picked is a pressed one, whatever was drawn; none is picked exactly when no key is pressed. -/
theorem pickKey_spec (d : Nat) (ks : List Reg) :
    (∀ k, pickKey d ks = some k → k ∈ ks) ∧ (pickKey d ks = none ↔ ks = []) := by
  match ks with
  | [] => simp [pickKey]
  | [k] => simp [pickKey]
  | k :: l :: ks =>
    have hlt : d % (k :: l :: ks).length < (k :: l :: ks).length := Nat.mod_lt _ (by simp)
    refine ⟨fun q hq => ?_, ?_⟩
    · exact List.mem_of_getElem? hq
    · simp only [pickKey, reduceCtorEq, iff_false]
      rw [List.getElem?_eq_getElem hlt]; simp

/-! ## Frame buffer -/

/-- Everything an inversion does: the cell named is inverted, every other cell of the buffer stays. -/
theorem cell_flip (fb : FrameBuffer) (p q : Nat) (hp : p < 2048) (hq : q < 2048) :
    FrameBuffer.cell (FrameBuffer.flip fb p) q = (FrameBuffer.cell fb q ^^ decide (p = q)) := by
  have hpd : p / 64 < 32 := by omega
  have hqd : q / 64 < 32 := by omega
  have hpm : p % 64 < 64 := Nat.mod_lt _ (by decide)
  have hqm : q % 64 < 64 := Nat.mod_lt _ (by decide)
  unfold FrameBuffer.cell FrameBuffer.flip
  by_cases hd : p / 64 = q / 64
  · by_cases hm : p % 64 = q % 64
    · have : p = q := by omega
      subst this
      simp [hpd, hpm]
    · have : p ≠ q := fun e => hm (by rw [e])
      have hsh : (1#64 <<< (p % 64)).getLsbD (q % 64) = false := by
        simp only [BitVec.getLsbD_shiftLeft, BitVec.getLsbD_one]
        have : ¬ (q % 64 - p % 64 = 0 ∧ ¬ q % 64 < p % 64) := by omega
        by_cases h1 : q % 64 < p % 64
        · simp [h1]
        · have : q % 64 - p % 64 ≠ 0 := by omega
          simp [this]
      simp [hd, hqd, this, hsh]
  · have : p ≠ q := fun e => hd (by rw [e])
    simp [hqd, this, hd]

/-- Every cell of the cleared buffer is off. -/
@[simp] theorem cell_blank (p : Nat) : FrameBuffer.cell FrameBuffer.blank p = false := by
  unfold FrameBuffer.cell FrameBuffer.blank
  by_cases h : p / 64 < 32
  · rw [Vector.getElem?_eq_getElem h]; simp
  · rw [Vector.getElem?_eq_none (by omega)]; simp

theorem cellAt_lt (vx vy c r : Nat) : cellAt vx vy c r < 2048 := by
  unfold cellAt; omega

end Sys2Proof.Machine
end

