-- ==== Sys2Proof/Laws/Frame.lean ====
section
/-! SUPPORT. Frames (`changesOnly`) of the shared operations, and what each shared operation that branches can answer. -/

namespace Sys2Proof.Machine

/-! ## The frame relation -/

theorem changesOnly_refl (s : State) (p : Element → Prop) : changesOnly s s p := by
  intro e _; cases e <;> rfl

theorem changesOnly_mono {s t : State} {p q : Element → Prop} (h : changesOnly s t p) (hpq : ∀ e, p e → q e) :
    changesOnly s t q := fun e he => h e (fun hp => he (hpq e hp))

theorem changesOnly_trans {s t u : State} {p : Element → Prop} (h : changesOnly s t p) (h' : changesOnly t u p) :
    changesOnly s u p := by
  intro e he
  have h1 := h e he
  have h2 := h' e he
  cases e <;> exact Eq.trans h2 h1

/-! ## The frame of each operation -/

theorem changesOnly_setV (s : State) (x : Reg) (b : Byte) : changesOnly s (s.setV x b) (fun e => e = .reg x) := by
  intro e he
  cases e with
  | reg r => exact getV_setV_other s x r b (fun h => he (by rw [h]))
  | _ => rfl

/-- The frame of a flag write followed by a result write. -/
theorem changesOnly_flagged (s : State) (x : Reg) (f b : Byte) :
    changesOnly s ((s.setV Reg.flag f).setV x b) (fun e => e = .reg x ∨ e = .reg 15) :=
  changesOnly_trans (changesOnly_mono (changesOnly_setV s 15 f) (fun _ h => .inr h))
    (changesOnly_mono (changesOnly_setV _ x b) (fun _ h => .inl h))

theorem changesOnly_pc (s : State) (p : Word) : changesOnly s { s with pc := p } (fun e => e = .pc) := by
  intro e he
  cases e <;> first | rfl | exact absurd rfl he

/-- A register write of an instruction that uses up a draw. -/
theorem changesOnly_drawn (s : State) (x : Reg) (b : Byte) :
    changesOnly s (({ s with draws := s.draws + 1 }).setV x b) (fun e => e = .reg x ∨ e = .draws) := by
  intro e he
  cases e with
  | reg r => exact getV_setV_other _ x r b (fun h => he (by rw [h]; simp))
  | draws => exact absurd (.inr rfl) he
  | _ => rfl

theorem changesOnly_storeBytes (s : State) (a : Nat) (bs : List Byte) (p : Element → Prop)
    (h : ∀ b, a ≤ b → b < a + bs.length → p (.byte b)) :
    changesOnly s { s with mem := Memory.storeBytes s.mem a bs } p := by
  intro e he
  cases e with
  | byte b =>
    show Memory.read (Memory.storeBytes s.mem a bs) b = _
    rw [read_storeBytes, if_neg]
    intro hb; exact he (h b hb.1 hb.2)
  | _ => rfl

/-- A raised fault has the frame of a fault. -/
theorem faultedAs_latch (s : State) (f : Fault) (n : Nat) : faultedAs s (latchFault f s.instrAddr n s) f n := by
  refine ⟨rfl, rfl, fun e he => ?_⟩
  cases e <;> first | rfl | (exfalso; exact he (by simp))

theorem changesOnly_tick (s : State) : changesOnly s (tick s) (fun e => e = .delay ∨ e = .sound) := by
  intro e he
  cases e <;> first | rfl | (exfalso; exact he (by simp))

theorem changesOnly_keySet (k : Fin 16) (b : Bool) (s : State) :
    changesOnly s (keySet k b s) (fun e => e = .key k) := by
  intro e he
  cases e with
  | key q =>
    have : k.val ≠ q.val := fun h => he (by rw [Fin.ext h])
    simp [sameAt, keySet, Vector.getElem_set_ne _ _ this]
  | _ => rfl

theorem changesOnly_dirtyClear (s : State) : changesOnly s (dirtyClear s) (fun e => e = .dirty) := by
  intro e he
  cases e <;> first | rfl | exact absurd rfl he

/-! ## What each branching operation can answer -/

/-- A range check answers what the checked operation answers, or latches the fault. -/
theorem withRange_cases (len : Nat) (go : State → Result) (s : State) :
    (s.rangeOk len = true ∧ withRange len go s = go s) ∨
    (s.rangeOk len = false ∧
      withRange len go s = .next (latchFault .dataAddressOutOfRange (s.pc - 2) (max s.i.toNat 0x1000) s)) := by
  cases h : s.rangeOk len
  · exact .inr ⟨rfl, withRange_fault len go s h⟩
  · exact .inl ⟨rfl, withRange_ok len go s h⟩

/-- A key access goes on with the key that `V[x]` names, or latches the fault. -/
theorem withKey_cases (x : Reg) (go : Bool → State → Result) (s : State) :
    (∃ k : Fin 16, (s.getV x).toNat = k.val ∧ withKey x go s = go s.keys[k.val] s) ∨
    ((s.getV x).toNat > 15 ∧
      withKey x go s = .next (latchFault .keyIndexOutOfRange (s.pc - 2) (s.getV x).toNat s)) := by
  by_cases h : (s.getV x).toNat < 16
  · exact .inl ⟨⟨_, h⟩, rfl, by simp [withKey, h]⟩
  · exact .inr ⟨by omega, by simp [withKey, h, raise, State.instrAddr]⟩

/-- A push: below depth 16 the entry `sp` takes `pc`; at depth 16 the fault is latched. -/
theorem pushAndJump_cases (target : Word) (s : State) :
    (∃ j : Fin 16, s.sp.val = j.val ∧
      pushAndJump target s = .next { s with stack := s.stack.set j.val s.pc, sp := j.succ, pc := target }) ∨
    (s.sp = 16 ∧ pushAndJump target s = .next (latchFault .stackOverflow (s.pc - 2) 16 s)) := by
  by_cases h : s.sp.val < 16
  · exact .inl ⟨⟨_, h⟩, rfl, by simp [pushAndJump, h, Fin.succ]⟩
  · have hs := s.sp.isLt
    have h16 : s.sp.val = 16 := by omega
    exact .inr ⟨Fin.ext h16, by simp [pushAndJump, h, raise, State.instrAddr]⟩

/-- A pop: above depth 0 `pc` takes the entry below `sp`; at depth 0 the fault is latched. -/
theorem popToPc_cases (s : State) :
    (∃ j : Fin 16, s.sp.val = j.val + 1 ∧
      popToPc s = .next { s with sp := j.castSucc, pc := s.stack[j.val] }) ∨
    (s.sp = 0 ∧ popToPc s = .next (latchFault .stackUnderflow (s.pc - 2) 0 s)) := by
  by_cases h : s.sp.val = 0
  · exact .inr ⟨Fin.ext h, by simp [popToPc, h, raise, State.instrAddr]⟩
  · have hs := s.sp.isLt
    refine .inl ⟨⟨s.sp.val - 1, by omega⟩, by simp; omega, ?_⟩
    simp only [popToPc, h, dite_false]; rfl

/-- The wait for a key: the picked key's number is written and the draw is used up, or `pc` goes back. -/
theorem waitKeyWith_cases (draw : Nat) (x : Reg) (s : State) :
    (∃ k : Reg, k ∈ pressedKeys s.keys ∧
      waitKeyWith draw x s = .next (({ s with draws := s.draws + 1 }).setV x (BitVec.ofNat 8 k.val))) ∨
    (pressedKeys s.keys = [] ∧ waitKeyWith draw x s = .next { s with pc := s.pc - 2 }) := by
  obtain ⟨h1, h2⟩ := pickKey_spec draw (pressedKeys s.keys)
  cases hp : pickKey draw (pressedKeys s.keys) with
  | none => exact .inr ⟨h2.1 hp, by simp [waitKeyWith, hp, jumpTo, State.instrAddr]⟩
  | some k => exact .inl ⟨k, h1 k hp, by simp [waitKeyWith, hp, writeReg]⟩

/-- An image that fits: the state after reset with the image stored, the model's own two fields kept. -/
theorem resetWith_fits (image : List Byte) (s : State) (h : image.length ≤ 3584) :
    resetWith image s = .next { State.reset with
      mem := Memory.storeBytes [] 0x200 image, draws := s.draws, diags := s.diags } := by
  simp only [resetWith, Config.maxImage]
  exact if_pos h

theorem resetWith_refused (image : List Byte) (s : State) (h : image.length > 3584) :
    resetWith image s = .refused (.imageTooLong image.length) := by
  simp only [resetWith, Config.maxImage]
  exact if_neg (Nat.not_le.2 h)

/-! ## Steps -/

/-- How a step begins: stuck, out of range, or the decoded instruction on the state past its word. -/
theorem step_cases (s : State) :
    (s.fault ≠ none ∧ step s = .next s) ∨
    (s.fault = none ∧ s.pc.toNat > 0xFFE ∧ step s = .next (latchFault .fetchOutOfRange s.pc s.pc.toNat s)) ∨
    (s.fetches ∧ step s = exec (decode (Memory.fetchWord s.mem s.pc.toNat)) s.advance) := by
  by_cases hf : s.fault = none
  · by_cases hp : s.pc.toNat > 0xFFE
    · exact .inr (.inl ⟨hf, hp, by simp only [step, fetch_outOfRange s hf hp]; rfl⟩)
    · have h : s.fetches := ⟨hf, Nat.not_lt.1 hp⟩
      exact .inr (.inr ⟨h, by simp only [step, fetch_word s h]⟩)
  · exact .inl ⟨hf, by simp only [step, fetch_stuck s hf]⟩

/-- One step of a run. -/
theorem core_run_succ (k : Nat) (s t : State) (h : step s = .next t) : core.run (k + 1) s = core.run k t := by
  have run_succ : ∀ (m : Host.Core) (n : Nat) (s : m.State), m.run (n + 1) s =
      match m.step s with
      | .next t => m.run n t
      | .fault f => .fault f
      | .refused r => .refused r := fun _ _ _ => rfl
  have h' : core.step s = .next t := h
  exact (run_succ core k s).trans (by rw [h'])

/-! ## Drawing -/

/-- Everything one sprite bit does to a cell of the buffer. -/
theorem cell_blitBit (p q : Nat) (bit : Bool) (b : Blit) (hp : p < 2048) (hq : q < 2048) :
    FrameBuffer.cell (blitBit p bit b).fb q = (FrameBuffer.cell b.fb q ^^ (bit && decide (p = q))) := by
  cases bit
  · simp [blitBit]
  · simp [blitBit, cell_flip b.fb p q hp hq]

end Sys2Proof.Machine
end

