-- ==== Sys2Proof/Laws/Draw.lean ====
section
/-! SUPPORT. Everything a sprite blit does (45_display.md R241): the blit is a fold over the sprite's bits, each with the cell
it falls on; no two bits of one sprite fall on one cell, so the order is unobservable. -/

namespace Sys2Proof.Machine

/-- The cells and bits of one sprite row. -/
def spriteRow (vx vy r : Nat) (row : Byte) : List (Nat × Bool) :=
  (List.range 8).map (fun c => (cellAt vx vy c r, row.getLsbD (7 - c)))

/-- The cells and bits of the sprite's rows from row `r` on. -/
def spriteBits (vx vy r : Nat) : List Byte → List (Nat × Bool)
  | [] => []
  | row :: rows => spriteRow vx vy r row ++ spriteBits vx vy (r + 1) rows

/-- Drawing a list of cells and bits. -/
def blitBits (l : List (Nat × Bool)) (b : Blit) : Blit := l.foldl (fun acc e => blitBit e.1 e.2 acc) b

/-- Everything drawing distinct cells does. -/
theorem blitBits_spec (l : List (Nat × Bool)) : ∀ (b : Blit), (∀ e ∈ l, e.1 < 2048) → l.Pairwise (fun a b => a.1 ≠ b.1) →
    (∀ q, q < 2048 → FrameBuffer.cell (blitBits l b).fb q = (FrameBuffer.cell b.fb q ^^ decide ((q, true) ∈ l))) ∧
    ((blitBits l b).collision = true ↔
      b.collision = true ∨ ∃ q, (q, true) ∈ l ∧ FrameBuffer.cell b.fb q = true) ∧
    ((blitBits l b).changed = true ↔ b.changed = true ∨ ∃ q, (q, true) ∈ l) := by
  induction l with
  | nil => intro b _ _; simp [blitBits]
  | cons e l ih =>
    intro b hb hp
    obtain ⟨p, bit⟩ := e
    have hpl : p < 2048 := hb (p, bit) (by simp)
    rw [List.pairwise_cons] at hp
    obtain ⟨i1, i2, i3⟩ := ih (blitBit p bit b) (fun e he => hb e (by simp [he])) hp.2
    have hnot : ∀ v, (p, v) ∉ l := fun v hv => hp.1 (p, v) hv rfl
    rw [show blitBits ((p, bit) :: l) b = blitBits l (blitBit p bit b) from rfl]
    refine ⟨fun q hq => ?_, ?_, ?_⟩
    · rw [i1 q hq, cell_blitBit p q bit b hpl hq]
      by_cases hpq : p = q
      · subst hpq
        cases bit <;> simp [hnot]
      · simp [hpq, Ne.symm hpq]
    · have hc : ∀ q, (q, true) ∈ l → FrameBuffer.cell (blitBit p bit b).fb q = FrameBuffer.cell b.fb q := by
        intro q hq
        have : p ≠ q := fun h => hnot true (h ▸ hq)
        rw [cell_blitBit p q bit b hpl (hb (q, true) (by simp [hq]))]; simp [this]
      rw [i2]
      constructor
      · rintro (h | ⟨q, h1, h2⟩)
        · cases bit
          · exact .inl (by simpa [blitBit] using h)
          · simp only [blitBit, if_true, Bool.or_eq_true] at h
            exact h.imp_right (fun h => ⟨p, by simp, h⟩)
        · exact .inr ⟨q, by simp [h1], by rw [← hc q h1]; exact h2⟩
      · rintro (h | ⟨q, h1, h2⟩)
        · left; cases bit <;> simp [blitBit, h]
        · rw [List.mem_cons] at h1
          rcases h1 with h1 | h1
          · obtain ⟨rfl, rfl⟩ := Prod.mk.injEq _ _ _ _ ▸ h1
            left; simp [blitBit, h2]
          · exact .inr ⟨q, h1, by rw [hc q h1]; exact h2⟩
    · rw [i3]
      cases bit
      · simp [blitBit]
      · simp only [blitBit, if_true, true_or, true_iff]
        exact .inr ⟨p, by simp⟩

theorem blitRows_eq (rows : List Byte) : ∀ (vx vy r : Nat) (b : Blit),
    blitRows vx vy r rows b = blitBits (spriteBits vx vy r rows) b := by
  induction rows with
  | nil => intros; rfl
  | cons row rows ih =>
    intro vx vy r b
    simp [blitRows, ih, spriteBits, spriteRow, blitRow, blitBits, List.foldl_map]

theorem mem_spriteRow (vx vy r : Nat) (row : Byte) (e : Nat × Bool) :
    e ∈ spriteRow vx vy r row ↔ ∃ c, c < 8 ∧ e = (cellAt vx vy c r, row.getLsbD (7 - c)) := by
  simp only [spriteRow, List.mem_map, List.mem_range, eq_comm]

theorem mem_spriteBits (rows : List Byte) : ∀ (vx vy r : Nat) (e : Nat × Bool), e ∈ spriteBits vx vy r rows ↔
    ∃ k c, k < rows.length ∧ c < 8 ∧ e = (cellAt vx vy c (r + k), (rows.getD k 0).getLsbD (7 - c)) := by
  induction rows with
  | nil => intros; simp [spriteBits]
  | cons row rows ih =>
    intro vx vy r e
    simp only [spriteBits, List.mem_append, mem_spriteRow, ih]
    constructor
    · rintro (⟨c, hc, h⟩ | ⟨k, c, hk, hc, h⟩)
      · exact ⟨0, c, by simp, hc, h⟩
      · exact ⟨k + 1, c, by simp; omega, hc, by rw [h, show r + 1 + k = r + (k + 1) by omega]; rfl⟩
    · rintro ⟨k, c, hk, hc, h⟩
      cases k with
      | zero => exact .inl ⟨c, hc, h⟩
      | succ k =>
        exact .inr ⟨k, c, by simp at hk; omega, hc, by rw [h, show r + 1 + k = r + (k + 1) by omega]; rfl⟩

/-- Two bits of one sprite of at most 16 rows fall on one cell only if they are the same bit. -/
theorem cellAt_inj (vx vy c c' r r' : Nat) (hc : c < 8) (hc' : c' < 8) (hr : r < r' + 16) (hr' : r' < r + 16)
    (h : cellAt vx vy c r = cellAt vx vy c' r') : c = c' ∧ r = r' := by
  unfold cellAt at h; omega

theorem spriteBits_distinct (rows : List Byte) : ∀ (vx vy r : Nat), rows.length ≤ 16 →
    (spriteBits vx vy r rows).Pairwise (fun a b => a.1 ≠ b.1) := by
  induction rows with
  | nil => intros; simp [spriteBits]
  | cons row rows ih =>
    intro vx vy r hl
    simp only [List.length_cons] at hl
    rw [spriteBits, List.pairwise_append]
    refine ⟨?_, ih _ _ _ (by omega), ?_⟩
    · rw [spriteRow, List.pairwise_map]
      refine List.Pairwise.imp_of_mem ?_ (List.pairwise_lt_range (n := 8))
      intro a b ha hb hlt he
      have := cellAt_inj vx vy a b r r (by simpa using ha) (by simpa using hb) (by omega) (by omega) he
      omega
    · intro a ha b hb he
      obtain ⟨c, hc, rfl⟩ := (mem_spriteRow _ _ _ _ _).1 ha
      obtain ⟨k, c', hk, hc', rfl⟩ := (mem_spriteBits _ _ _ _ _).1 hb
      have := cellAt_inj vx vy c c' r (r + 1 + k) hc hc' (by omega) (by omega) he
      omega

/-- Everything a blit of at most 16 rows does: a cell is inverted iff a 1 bit of the sprite falls on it; a collision is
reported iff such a cell was on; a change is reported iff there is such a cell. -/
theorem blit_spec (vx vy : Nat) (sprite : List Byte) (fb : FrameBuffer) (h : sprite.length ≤ 16) :
    let hit (p : Nat) := (p, true) ∈ spriteBits vx vy 0 sprite
    (∀ p, p < 2048 → FrameBuffer.cell (blit vx vy sprite fb).fb p = (FrameBuffer.cell fb p ^^ decide (hit p))) ∧
    ((blit vx vy sprite fb).collision = true ↔ ∃ p, hit p ∧ FrameBuffer.cell fb p = true) ∧
    ((blit vx vy sprite fb).changed = true ↔ ∃ p, hit p) := by
  simp only [blit, blitRows_eq]
  have hs := blitBits_spec (spriteBits vx vy 0 sprite) { fb := fb, collision := false, changed := false }
    (fun e he => by obtain ⟨k, c, _, _, rfl⟩ := (mem_spriteBits _ _ _ _ _).1 he; exact cellAt_lt _ _ _ _)
    (spriteBits_distinct _ _ _ _ h)
  simpa using hs

end Sys2Proof.Machine
end

