-- ==== Sys2Proof/Laws/PerInstr.lean ====
section
/-! SUPPORT. Statements made for each constructor of `Instr`. Family `MaskMatch`: the word of an instruction matches the mask
and the value of the instruction's own row of the opcode table (30_encoding.md R107). -/

namespace Sys2Proof

/-! Formats `NNN`, `XKK`, `XYN` and `Z` under the three masks of the table. -/

/-- Bit `i` of a word put together from two parts. -/
theorem getLsbD_join (o : Nibble) (r : BitVec 12) (i : Nat) :
    BitVec.getLsbD (w := 16) (o ++ r) i = if i < 12 then r.getLsbD i else o.getLsbD (i - 12) := by
  have h := BitVec.getLsbD_append (x := o) (y := r) (i := i)
  simpa using h

theorem getLsbD_join8 (o : Nibble) (r : Byte) (i : Nat) :
    BitVec.getLsbD (w := 12) (o ++ r) i = if i < 8 then r.getLsbD i else o.getLsbD (i - 8) := by
  have h := BitVec.getLsbD_append (x := o) (y := r) (i := i)
  simpa using h

theorem getLsbD_join4 (o r : Nibble) (i : Nat) :
    BitVec.getLsbD (w := 8) (o ++ r) i = if i < 4 then r.getLsbD i else o.getLsbD (i - 4) := by
  have h := BitVec.getLsbD_append (x := o) (y := r) (i := i)
  simpa using h

theorem encodeNNN_mask (o : Nibble) (nnn : BitVec 12) : encodeNNN o nnn &&& 0xF000 = o ++ 0#12 := by
  apply BitVec.eq_of_getLsbD_eq
  intro i hi
  rw [BitVec.getLsbD_and, encodeNNN, getLsbD_join, getLsbD_join]
  interval_cases i <;> simp

theorem encodeXKK_mask (o : Nibble) (x : Reg) (kk : Byte) : encodeXKK o x kk &&& 0xF000 = o ++ 0#12 :=
  encodeNNN_mask o (regBits x ++ kk)

theorem encodeXYN_mask (o : Nibble) (x y : Reg) (n : Nibble) : encodeXYN o x y n &&& 0xF000 = o ++ 0#12 :=
  encodeNNN_mask o (regBits x ++ (regBits y ++ n))

theorem encodeXKK_maskLow (o : Nibble) (x : Reg) (kk : Byte) :
    encodeXKK o x kk &&& 0xF0FF = o ++ (0#4 ++ kk) := by
  apply BitVec.eq_of_getLsbD_eq
  intro i hi
  rw [BitVec.getLsbD_and, encodeXKK, getLsbD_join, getLsbD_join, getLsbD_join8, getLsbD_join8]
  interval_cases i <;> simp

theorem encodeXYN_maskLow (o : Nibble) (x y : Reg) (n : Nibble) :
    encodeXYN o x y n &&& 0xF00F = o ++ (0#4 ++ (0#4 ++ n)) := by
  apply BitVec.eq_of_getLsbD_eq
  intro i hi
  rw [BitVec.getLsbD_and, encodeXYN, getLsbD_join, getLsbD_join, getLsbD_join8, getLsbD_join8, getLsbD_join4, getLsbD_join4]
  interval_cases i <;> simp

theorem encodeZ_mask (ign : Nibble) (ss : Byte) : encodeZ ign ss &&& 0xF0FF = 0#4 ++ (0#4 ++ ss) := by
  apply BitVec.eq_of_getLsbD_eq
  intro i hi
  rw [BitVec.getLsbD_and, encodeZ, getLsbD_join, getLsbD_join, getLsbD_join8, getLsbD_join8]
  interval_cases i <;> simp

end Sys2Proof

namespace Sys2Proof.Laws.MaskMatch

/-- The word of `i` matches the mask and value of `i`'s row. -/
def Statement (i : Instr) : Prop :=
  match i.row with
  | some r => encode i &&& r.mask = r.value
  | none => False

theorem cls (ign : Nibble) : Statement (.cls ign) := encodeZ_mask ign _
theorem ret (ign : Nibble) : Statement (.ret ign) := encodeZ_mask ign _
theorem sys (nnn : BitVec 12) : Statement (.sys nnn) := encodeNNN_mask _ nnn
theorem jp (nnn : BitVec 12) : Statement (.jp nnn) := encodeNNN_mask _ nnn
theorem call (nnn : BitVec 12) : Statement (.call nnn) := encodeNNN_mask _ nnn
theorem seImm (x : Reg) (kk : Byte) : Statement (.seImm x kk) := encodeXKK_mask _ x kk
theorem sneImm (x : Reg) (kk : Byte) : Statement (.sneImm x kk) := encodeXKK_mask _ x kk
theorem seReg (x y : Reg) (ign : Nibble) : Statement (.seReg x y ign) := encodeXYN_mask _ x y ign
theorem ldImm (x : Reg) (kk : Byte) : Statement (.ldImm x kk) := encodeXKK_mask _ x kk
theorem addImm (x : Reg) (kk : Byte) : Statement (.addImm x kk) := encodeXKK_mask _ x kk
theorem ldReg (x y : Reg) : Statement (.ldReg x y) := encodeXYN_maskLow _ x y _
theorem orReg (x y : Reg) : Statement (.orReg x y) := encodeXYN_maskLow _ x y _
theorem andReg (x y : Reg) : Statement (.andReg x y) := encodeXYN_maskLow _ x y _
theorem xorReg (x y : Reg) : Statement (.xorReg x y) := encodeXYN_maskLow _ x y _
theorem addReg (x y : Reg) : Statement (.addReg x y) := encodeXYN_maskLow _ x y _
theorem subReg (x y : Reg) : Statement (.subReg x y) := encodeXYN_maskLow _ x y _
theorem shr (x y : Reg) : Statement (.shr x y) := encodeXYN_maskLow _ x y _
theorem subnReg (x y : Reg) : Statement (.subnReg x y) := encodeXYN_maskLow _ x y _
theorem shl (x y : Reg) : Statement (.shl x y) := encodeXYN_maskLow _ x y _
theorem sneReg (x y : Reg) (ign : Nibble) : Statement (.sneReg x y ign) := encodeXYN_mask _ x y ign
theorem ldI (nnn : BitVec 12) : Statement (.ldI nnn) := encodeNNN_mask _ nnn
theorem jpV0 (nnn : BitVec 12) : Statement (.jpV0 nnn) := encodeNNN_mask _ nnn
theorem rnd (x : Reg) (kk : Byte) : Statement (.rnd x kk) := encodeXKK_mask _ x kk
theorem drw (x y : Reg) (n : Nibble) : Statement (.drw x y n) := encodeXYN_mask _ x y n
theorem skp (x : Reg) : Statement (.skp x) := encodeXKK_maskLow _ x _
theorem sknp (x : Reg) : Statement (.sknp x) := encodeXKK_maskLow _ x _
theorem ldVxDt (x : Reg) : Statement (.ldVxDt x) := encodeXKK_maskLow _ x _
theorem ldVxK (x : Reg) : Statement (.ldVxK x) := encodeXKK_maskLow _ x _
theorem ldDtVx (x : Reg) : Statement (.ldDtVx x) := encodeXKK_maskLow _ x _
theorem ldStVx (x : Reg) : Statement (.ldStVx x) := encodeXKK_maskLow _ x _
theorem addI (x : Reg) : Statement (.addI x) := encodeXKK_maskLow _ x _
theorem ldF (x : Reg) : Statement (.ldF x) := encodeXKK_maskLow _ x _
theorem ldB (x : Reg) : Statement (.ldB x) := encodeXKK_maskLow _ x _
theorem ldMemVx (x : Reg) : Statement (.ldMemVx x) := encodeXKK_maskLow _ x _
theorem ldVxMem (x : Reg) : Statement (.ldVxMem x) := encodeXKK_maskLow _ x _
theorem gap (w : Word) : Statement (.gap w) := by simp [Statement, Instr.row, opcodeTable, opcodeRowsA, opcodeRowsB, opcodeRowsC, Instr.rowNumber]

end Sys2Proof.Laws.MaskMatch
end

