-- ==== Sys2Proof/Tests/Slice0.lean ====
section
/-! SUPPORT. Tests and witnesses. The expected results are those of 95_test_vectors.md (V-DEC, V-CTL, V-ALU, V-IDX, V-KEY, V-DSP,
V-FLT, V-RST and the S rows), each test being one step of one word on a small state; a witness shows that the hypotheses of an
obligation can be met, each clause at a boundary. -/

namespace Sys2Proof.Tests

open Sys2Proof Sys2Proof.Machine Sys2Proof.Claims

/-! ## Helpers -/

/-- One step with a word placed where it is fetched. -/
def one (w : Nat) (s : State) : Result := step (s.withFetchWord 16 w)

/-- The result is a next state that has the property. -/
def gives (r : Result) (p : State → Bool) : Bool :=
  match r with
  | .next t => p t
  | .fault _ => false
  | .refused _ => false

/-- The state after reset with some registers set. -/
def regs (l : List (Reg × Byte)) : State := l.foldl (fun s p => s.setV p.1 p.2) State.reset

/-- The same with `I` set. -/
def regsI (i : Word) (l : List (Reg × Byte)) : State := { regs l with i := i }

/-- A state whose latch holds a fault and that is otherwise as given. -/
def isFault (s t : State) (f : Fault) (info : Nat) : Bool :=
  t == { s with fault := some { cause := f, pcAt := s.pc, info := info } }

/-! ## WellFormed: each check refuses an ill-formed term, and takes its neighbour -/

theorem test_wf_refuses_sys_of_cls : WellFormed (.sys 0x3E0) = false := by decide
theorem test_wf_refuses_sys_of_ret : WellFormed (.sys 0x0EE) = false := by decide
theorem test_wf_refuses_gap_of_instruction :
    WellFormed (.gap 0x8AB4) = false ∧ WellFormed (.gap 0xEA9E) = false ∧ WellFormed (.gap 0xFA65) = false ∧
    WellFormed (.gap 0x1234) = false := by decide
theorem test_wf_takes_neighbours :
    WellFormed (.sys 0x0E1) = true ∧ WellFormed (.gap 0x8AB8) = true ∧ WellFormed (.gap 0xEA9F) = true ∧
    WellFormed (.gap 0xFA66) = true := by decide

/-! ## Decode: a word written out from the spec's pattern for every constructor (V-DEC, R107) -/

theorem test_decode_group0 :
    decode 0x00E0 = .cls 0 ∧ decode 0x03E0 = .cls 3 ∧ decode 0x00EE = .ret 0 ∧ decode 0x0FEE = .ret 15 ∧
    decode 0x0000 = .sys 0 ∧ decode 0x00F0 = .sys 0x0F0 ∧ decode 0x00FE = .sys 0x0FE := by decide
theorem test_decode_jumps :
    decode 0x1ABC = .jp 0xABC ∧ decode 0x2ABC = .call 0xABC ∧ decode 0xAABC = .ldI 0xABC ∧
    decode 0xBABC = .jpV0 0xABC := by decide
theorem test_decode_skips :
    decode 0x3A12 = .seImm 10 0x12 ∧ decode 0x4A12 = .sneImm 10 0x12 ∧ decode 0x5AB0 = .seReg 10 11 0 ∧
    decode 0x5AB7 = .seReg 10 11 7 ∧ decode 0x9AB0 = .sneReg 10 11 0 ∧ decode 0x9ABF = .sneReg 10 11 15 := by decide
theorem test_decode_immediates :
    decode 0x6A05 = .ldImm 10 5 ∧ decode 0x7A03 = .addImm 10 3 ∧ decode 0xCA0F = .rnd 10 0x0F ∧
    decode 0xDAB5 = .drw 10 11 5 := by decide
theorem test_decode_group8 :
    decode 0x8AB0 = .ldReg 10 11 ∧ decode 0x8AB1 = .orReg 10 11 ∧ decode 0x8AB2 = .andReg 10 11 ∧
    decode 0x8AB3 = .xorReg 10 11 ∧ decode 0x8AB4 = .addReg 10 11 ∧ decode 0x8AB5 = .subReg 10 11 ∧
    decode 0x8AB6 = .shr 10 11 ∧ decode 0x8AB7 = .subnReg 10 11 ∧ decode 0x8ABE = .shl 10 11 := by decide
theorem test_decode_group8_gaps :
    ([0x8AB8, 0x8AB9, 0x8ABA, 0x8ABB, 0x8ABC, 0x8ABD, 0x8ABF] : List Word).all (fun w => decode w == .gap w) = true := by decide
theorem test_decode_groupE :
    decode 0xEA9E = .skp 10 ∧ decode 0xEAA1 = .sknp 10 ∧
    ([0xEA9F, 0xEA00, 0xEA1E, 0xEAE1] : List Word).all (fun w => decode w == .gap w) = true := by decide
theorem test_decode_groupF :
    decode 0xFA07 = .ldVxDt 10 ∧ decode 0xFA0A = .ldVxK 10 ∧ decode 0xFA15 = .ldDtVx 10 ∧ decode 0xFA18 = .ldStVx 10 ∧
    decode 0xFA1E = .addI 10 ∧ decode 0xFA29 = .ldF 10 ∧ decode 0xFA33 = .ldB 10 ∧ decode 0xFA55 = .ldMemVx 10 ∧
    decode 0xFA65 = .ldVxMem 10 := by decide
theorem test_decode_groupF_gaps :
    ([0xFA00, 0xFA30, 0xFA75, 0xFA85, 0xFAFF, 0xFA05] : List Word).all (fun w => decode w == .gap w) = true := by decide

/-- Bytes: high byte first, the rest handed on (S11). -/
theorem test_decode_bytes :
    ∃ rest, decodeBytes [0x6A, 0x05, 0x7A, 0x03] = .ok (.ldImm 10 5, rest) ∧ rest = [0x7A, 0x03] := ⟨_, rfl, rfl⟩
theorem test_decode_truncated : decodeBytes [0x6A] = .error .truncated ∧ decodeBytes [] = .error .truncated :=
  ⟨rfl, rfl⟩
theorem test_encode_bytes :
    encodeBytes (.call 0x300) = [0x23, 0x00] ∧ encodeBytes (.drw 1 2 5) = [0xD1, 0x25] ∧
    encodeBytes (.ldVxMem 2) = [0xF2, 0x65] ∧ encodeBytes (.cls 0) = [0x00, 0xE0] := by decide
theorem test_table_word : decodeTableWord 16 0x8AB4 = some (.addReg 10 11) := by decide

/-- No two rows of the table above the catch-all agree on a word: rows of the same group differ on a bit both examine, except
that `SYS` takes what `CLS` and `RET` leave (R107). -/
theorem test_rows_disjoint :
    (opcodeTable.filter (fun r => r.number != 3 && r.number != 36)).Pairwise
      (fun r q => (r.mask &&& q.mask) &&& (r.value ^^^ q.value) ≠ 0) := by decide

/-! ## Control transfer (V-CTL) -/

theorem test_jp_top : gives (one 0x1FFF State.reset) (fun t => t.pc == 0xFFF) = true := by decide
theorem test_call_deepest :
    gives (one 0x2300 { State.reset with sp := 15 })
      (fun t => t.pc == 0x300 && t.sp == 16 && t.stack[15] == 0x202) = true := by decide
theorem test_call_overflow :
    let s := State.withFetchWord { State.reset with sp := 16 } 16 0x2300
    gives (step s) (fun t => isFault s t .stackOverflow 16) = true := by decide
theorem test_ret :
    gives (one 0x00EE { State.reset with sp := 1, stack := State.reset.stack.set 0 0x456 })
      (fun t => t.pc == 0x456 && t.sp == 0 && t.stack[0] == 0x456) = true := by decide
theorem test_ret_underflow :
    let s := State.reset.withFetchWord 16 0x00EE
    gives (step s) (fun t => isFault s t .stackUnderflow 0) = true := by decide
theorem test_se_imm : gives (one 0x332A (regs [(3, 0x2A)])) (fun t => t.pc == 0x204) = true := by decide
theorem test_se_imm_not : gives (one 0x332A (regs [(3, 0x2B)])) (fun t => t.pc == 0x202) = true := by decide
theorem test_sne_imm : gives (one 0x432A (regs [])) (fun t => t.pc == 0x204) = true := by decide
theorem test_sne_imm_not : gives (one 0x432A (regs [(3, 0x2A)])) (fun t => t.pc == 0x202) = true := by decide
theorem test_se_reg_alias : gives (one 0x512C (regs [(1, 7), (2, 7)])) (fun t => t.pc == 0x204) = true := by decide
theorem test_se_reg_not : gives (one 0x5120 (regs [(1, 7), (2, 8)])) (fun t => t.pc == 0x202) = true := by decide
theorem test_sne_reg : gives (one 0x9120 (regs [(1, 7), (2, 8)])) (fun t => t.pc == 0x204) = true := by decide
theorem test_sne_reg_same : gives (one 0x9110 (regs [(1, 7)])) (fun t => t.pc == 0x202) = true := by decide
theorem test_jp_v0_top : gives (one 0xBFFF (regs [(0, 0xFF)])) (fun t => t.pc == 0x10FE) = true := by decide
theorem test_jp_v0_not_vx : gives (one 0xB300 (regs [(3, 0x55)])) (fun t => t.pc == 0x300) = true := by decide
theorem test_skip_past_top :
    gives (one 0x3000 { State.reset with pc := 0xFFE }) (fun t => t.pc == 0x1002 && t.fault == none) = true := by decide

/-! ## Registers and ALU (V-ALU) -/

theorem test_ld_imm : gives (one 0x61AB State.reset) (fun t => t.getV 1 == 0xAB && t.pc == 0x202) = true := by decide
theorem test_add_imm_no_flag :
    gives (one 0x7101 (regs [(1, 0xFF), (15, 1)])) (fun t => t.getV 1 == 0 && t.getV 15 == 1) = true := by decide
theorem test_ld_reg : gives (one 0x8120 (regs [(2, 0x7C)])) (fun t => t.getV 1 == 0x7C) = true := by decide
theorem test_or_keeps_flag :
    gives (one 0x8121 (regs [(1, 0xF0), (2, 0x0F), (15, 1)])) (fun t => t.getV 1 == 0xFF && t.getV 15 == 1) = true := by
  decide
theorem test_and : gives (one 0x8122 (regs [(1, 0xF0), (2, 0x3C)])) (fun t => t.getV 1 == 0x30) = true := by decide
theorem test_xor : gives (one 0x8123 (regs [(1, 0xF0), (2, 0x3C)])) (fun t => t.getV 1 == 0xCC) = true := by decide
theorem test_add_carry :
    gives (one 0x8124 (regs [(1, 0xC8), (2, 0x64)])) (fun t => t.getV 1 == 0x2C && t.getV 15 == 1) = true := by decide
theorem test_add_into_flag : gives (one 0x8F24 (regs [(15, 0xF0), (2, 0x20)])) (fun t => t.getV 15 == 0x10) = true := by
  decide
theorem test_sub_borrow :
    gives (one 0x8125 (regs [(1, 3), (2, 0x0A), (15, 1)])) (fun t => t.getV 1 == 0xF9 && t.getV 15 == 0) = true := by
  decide
theorem test_sub_equal :
    gives (one 0x8125 (regs [(1, 5), (2, 5), (15, 1)])) (fun t => t.getV 1 == 0 && t.getV 15 == 0) = true := by decide
theorem test_subn :
    gives (one 0x8127 (regs [(1, 3), (2, 0x0A)])) (fun t => t.getV 1 == 7 && t.getV 15 == 1) = true := by decide
theorem test_subn_flag_operand :
    gives (one 0x81F7 (regs [(1, 5), (15, 9)])) (fun t => t.getV 1 == 4 && t.getV 15 == 1) = true := by decide
theorem test_shr_ignores_vy :
    gives (one 0x8126 (regs [(1, 5), (2, 0x80)])) (fun t => t.getV 1 == 2 && t.getV 15 == 1 && t.getV 2 == 0x80) = true := by
  decide
theorem test_shr_flag_itself : gives (one 0x8F26 (regs [(15, 3)])) (fun t => t.getV 15 == 1) = true := by decide
theorem test_shl :
    gives (one 0x812E (regs [(1, 0x81), (2, 1)])) (fun t => t.getV 1 == 2 && t.getV 15 == 1) = true := by decide
theorem test_shl_flag_itself : gives (one 0x8F2E (regs [(15, 0x81)])) (fun t => t.getV 15 == 2) = true := by decide
theorem test_rnd_masks : gives (rndWith 0xA7 1 0x0F State.reset) (fun t => t.getV 1 == 0x07) = true := by decide
theorem test_rnd_zero_mask : ∀ d : Byte, (d &&& 0) = 0 := by simp

/-! ## Index and memory (V-IDX) -/

theorem test_ld_i : gives (one 0xA2F0 State.reset) (fun t => t.i == 0x2F0) = true := by decide
theorem test_add_i_wraps :
    gives (one 0xF11E (regsI 0xFFFF [(1, 2)])) (fun t => t.i == 1 && t.getV 15 == 0) = true := by decide
theorem test_add_i_past_memory :
    gives (one 0xF11E (regsI 0xFFF [(1, 1)])) (fun t => t.i == 0x1000 && t.fault == none) = true := by decide
theorem test_ld_f : gives (one 0xF329 (regs [(3, 0x0A)])) (fun t => t.i == 0x32) = true := by decide
theorem test_ld_f_not_masked : gives (one 0xF329 (regs [(3, 0xFF)])) (fun t => t.i == 0x4FB) = true := by decide
theorem test_ld_b_top :
    gives (one 0xF533 (regsI 0xFFD [(5, 0x7B)])) (fun t => t.mem.loadBytes 0xFFD 3 == [1, 2, 3]) = true := by decide
theorem test_ld_b_fault :
    let s := State.withFetchWord (regsI 0xFFE [(5, 0x7B)]) 16 0xF533
    gives (step s) (fun t => isFault s t .dataAddressOutOfRange 0x1000) = true := by decide
theorem test_dump :
    gives (one 0xF255 (regsI 0x300 [(0, 0x11), (1, 0x22), (2, 0x33), (3, 0x44)]))
      (fun t => t.mem.loadBytes 0x300 4 == [0x11, 0x22, 0x33, 0] && t.i == 0x300) = true := by decide
theorem test_dump_fault :
    let s := State.withFetchWord (regsI 0x1234 []) 16 0xF055
    gives (step s) (fun t => isFault s t .dataAddressOutOfRange 0x1234) = true := by decide
theorem test_load :
    gives (one 0xF065 { regsI 0x400 [(1, 0x55)] with mem := Memory.write [] 0x400 0x77 })
      (fun t => t.getV 0 == 0x77 && t.getV 1 == 0x55 && t.i == 0x400) = true := by decide
theorem test_load_fault_no_wrap :
    let s := State.withFetchWord (regsI 0xFFFF []) 16 0xF165
    gives (step s) (fun t => isFault s t .dataAddressOutOfRange 0xFFFF) = true := by decide

/-! ## Keys and timers (V-KEY) -/

theorem test_skp_reads_value_not_x :
    gives (one 0xE29E (keySet 2 true (regs [(2, 7)]))) (fun t => t.pc == 0x202) = true := by decide
theorem test_skp_fault :
    let s := State.withFetchWord (regs [(2, 0x10)]) 16 0xE29E
    gives (step s) (fun t => isFault s t .keyIndexOutOfRange 0x10) = true := by decide
theorem test_sknp : gives (one 0xE2A1 (regs [(2, 7)])) (fun t => t.pc == 0x204) = true := by decide
theorem test_sknp_pressed :
    gives (one 0xE2A1 (keySet 7 true (regs [(2, 7)]))) (fun t => t.pc == 0x202) = true := by decide
theorem test_wait_no_key :
    gives (one 0xF30A (regs [(3, 9)])) (fun t => t == (regs [(3, 9)]).withFetchWord 16 0xF30A) = true := by decide
theorem test_wait_chooses :
    let s := keySet 2 true (keySet 9 true State.reset)
    gives (waitKeyWith 0 3 s) (fun t => t.getV 3 == 2) = true ∧
    gives (waitKeyWith 1 3 s) (fun t => t.getV 3 == 9) = true := by decide
theorem test_ld_vx_dt :
    gives (one 0xF407 { State.reset with dt := 0x3C }) (fun t => t.getV 4 == 0x3C && t.dt == 0x3C) = true := by decide
theorem test_ld_dt_vx : gives (one 0xF415 (regs [(4, 0x3C)])) (fun t => t.dt == 0x3C && t.st == 0) = true := by decide
theorem test_ld_st_vx : gives (one 0xF418 (regs [(4, 5)])) (fun t => t.st == 5 && t.dt == 0) = true := by decide
theorem test_tick :
    gives (event .tick { State.reset with dt := 0x3C, st := 1 }) (fun t => t.dt == 0x3B && t.st == 0) = true := by decide
theorem test_tick_saturates :
    gives (event .tick { State.reset with st := 0xFF }) (fun t => t.dt == 0 && t.st == 0xFE) = true := by decide
theorem test_key_set :
    gives (event (.keySet 3 true) State.reset)
      (fun t => t == { State.reset with keys := State.reset.keys.set 3 true }) = true := by decide

/-! ## Display (V-DSP) -/

/-- The cells that are on, as columns, in one row. -/
def litRow (fb : FrameBuffer) (r : Nat) : List Nat := (List.range 64).filter (fun c => FrameBuffer.cell fb (r * 64 + c))

theorem test_cls :
    gives (one 0x00E0 { State.reset with fb := FrameBuffer.flip FrameBuffer.blank 100 }) (fun t => t.fb == FrameBuffer.blank && t.dirty) = true := by decide
theorem test_draw_glyph0 :
    gives (one 0xD015 State.reset)
      (fun t => litRow t.fb 0 == [0, 1, 2, 3] && litRow t.fb 1 == [0, 3] && t.getV 15 == 0 && t.dirty) = true := by decide
/-- Columns 60 to 63 and 0 to 3; column 1 was on, so it goes off and is a collision. -/
theorem test_draw_wraps_and_collides :
    gives (one 0xD011 { regsI 0x300 [(0, 60)] with
        mem := Memory.write [] 0x300 0xFF, fb := FrameBuffer.flip FrameBuffer.blank 1 })
      (fun t => litRow t.fb 0 == [0, 2, 3, 60, 61, 62, 63] && t.getV 15 == 1) = true := by decide

/-! ## Gaps, faults and events (V-FLT, V-RST, P1) -/

theorem test_gap :
    gives (one 0x8AB8 State.reset) (fun t => t.pc == 0x202 && t.diags == [⟨0x200, 0x8AB8⟩] && t.fault == none) = true := by
  decide
theorem test_sys :
    gives (one 0x0123 State.reset) (fun t => t.pc == 0x202 && t.diags == [⟨0x200, 0x0123⟩] && t.fault == none) = true := by
  decide
theorem test_fetch_last_word :
    gives (one 0x6001 { State.reset with pc := 0xFFE }) (fun t => t.getV 0 == 1 && t.pc == 0x1000) = true := by decide
theorem test_fetch_fault :
    let s := { State.reset with pc := 0xFFF }
    gives (step s) (fun t => isFault s t .fetchOutOfRange 0xFFF) = true := by decide
theorem test_odd_pc :
    gives (one 0x6107 { State.reset with pc := 0x201 }) (fun t => t.getV 1 == 7 && t.pc == 0x203) = true := by decide
theorem test_reset_loads_image :
    gives (event (.reset [0x6A, 0x05, 0x7A, 0x03]) (keySet 3 true State.reset))
      (fun t => t.mem.loadBytes 0x200 5 == [0x6A, 0x05, 0x7A, 0x03, 0] && t.pc == 0x200 && t.keys[3] == false) = true := by
  decide
theorem test_font :
    Memory.loadBytes State.reset.mem 0 5 = [0xF0, 0x90, 0x90, 0x90, 0xF0] ∧
    Memory.loadBytes State.reset.mem 0x4B 5 = [0xF0, 0x80, 0xF0, 0x80, 0x80] ∧
    Memory.read State.reset.mem 0x50 = 0 := by decide
theorem test_poke_byte :
    gives (event (.poke (.mem 4095 0xAB)) State.reset) (fun t => t.mem == [(0xFFF, 0xAB)]) = true := by decide

/-! ## Witnesses: the hypotheses of each obligation can be met, each clause at a boundary -/

theorem witness_DecodeOfEncodeIsIdentity :
    WellFormed (.drw 15 0 15) = true ∧ WellFormed (.gap 0xFFFF) = true ∧ WellFormed (.sys 0xFEF) = true := by decide

theorem witness_StepCycle :
    (∃ s : State, s.fault ≠ none) ∧
    (∃ s : State, s.fault = none ∧ s.pc.toNat > 0xFFE ∧ s.pc = 0xFFF) ∧
    (∃ s : State, s.fault = none ∧ s.pc.toNat ≤ 0xFFE ∧ s.pc = 0xFFE) :=
  ⟨⟨latchFault .stackUnderflow 0x200 0 State.reset, by decide⟩, ⟨{ State.reset with pc := 0xFFF }, by decide⟩,
   ⟨{ State.reset with pc := 0xFFE }, by decide⟩⟩

theorem witness_StepRunsDecodedInstruction :
    let s := State.withFetchWord { State.reset with pc := 0xFFE } 16 0x2300
    s.fault = none ∧ s.pc.toNat ≤ 0xFFE ∧ WellFormed (.call 0x300) = true ∧
    decodeBytes [Memory.read s.mem s.pc.toNat, Memory.read s.mem (s.pc.toNat + 1)] = .ok (.call 0x300, []) ∧
    Memory.loadBytes s.mem s.pc.toNat 2 = encodeBytes (.call 0x300) :=
  ⟨rfl, by decide, by decide, rfl, by decide⟩

theorem witness_FaultedCoreIsStuck :
    ∃ s t : State, s.fault ≠ none ∧ event (.reset []) s = .next t ∧ t.fault ≠ s.fault :=
  ⟨latchFault .stackUnderflow 0x200 0 State.reset, _, by decide, rfl, by decide⟩

theorem witness_FaultsArePrecise :
    ∃ s t : State, s.fault = none ∧ step s = .next t ∧ t.fault ≠ none :=
  ⟨{ State.reset with pc := 0xFFF }, _, rfl, rfl, by decide⟩

theorem witness_FaultsAreExactlyTheTable :
    ∃ s t : State, s.fault = none ∧ step s = .next t ∧ expectedFault s ≠ none :=
  ⟨State.reset.withFetchWord 16 0x00EE, _, rfl, rfl, by decide⟩

theorem witness_StepKeepsInvariant : ∃ s t : State, s.Inv ∧ step s = .next t :=
  ⟨State.reset, _, ⟨nil_wf, by decide, by decide⟩, rfl⟩

theorem witness_RunsKeepInvariant :
    ∃ (es : List Event) (s t : State), runEvents es s = .next t ∧ Memory.wf s.mem ∧ s.Inv ∧
      (∀ e ∈ es, e.pokesPc = false) ∧ es ≠ [] :=
  ⟨[.tick, .keySet 15 true, .reset [0x12]], State.reset, _, rfl, nil_wf, ⟨nil_wf, by decide, by decide⟩, by simp [Event.pokesPc],
   by simp⟩

theorem witness_CanonicalMemoryIsUnique :
    let m := Memory.write (Memory.write [] 0xFFF 1) 0 2
    Memory.wf m ∧ m ≠ [] ∧ ∀ a, a < 0x1000 → Memory.read m a = Memory.read m a := ⟨by decide, by decide, fun _ _ => rfl⟩

theorem witness_ReturnPopsPc :
    (∃ s : State, s.sp = 0) ∧ (∃ s : State, s.sp.val = (0 : Fin 16).val + 1 ∧ s.Inv) ∧
    (∃ s : State, s.sp.val = (15 : Fin 16).val + 1 ∧ s.Inv ∧ s.fault = none ∧ s.stack[15] = 0x1000) :=
  ⟨⟨State.reset, rfl⟩, ⟨{ State.reset with sp := 1 }, rfl, nil_wf, by decide, by decide⟩,
   ⟨{ State.reset with sp := 16, stack := State.reset.stack.set 15 0x1000 }, rfl, ⟨nil_wf, by decide, by decide⟩, rfl, by decide⟩⟩

theorem witness_JumpIsAbsolute : ∃ (s : State) (nnn : BitVec 12), s.fault = none ∧ nnn = 0xFFF :=
  ⟨State.reset, _, rfl, rfl⟩

theorem witness_JumpToSelfChangesNothing :
    let s := State.reset.withFetchWord 16 0x1200
    s.fetches ∧ s.pc.toNat = (0x200 : BitVec 12).toNat ∧
      Memory.fetchWord s.mem s.pc.toNat = wordNNN 1 0x200 := ⟨⟨rfl, by decide⟩, by decide, by decide⟩

theorem witness_CallPushesReturnAddress :
    (∃ s : State, s.sp = 16) ∧ (∃ s : State, s.sp.val = (0 : Fin 16).val) ∧ (∃ s : State, s.sp.val = (15 : Fin 16).val) :=
  ⟨⟨{ State.reset with sp := 16 }, rfl⟩, ⟨State.reset, rfl⟩, ⟨{ State.reset with sp := 15 }, rfl⟩⟩

theorem witness_CallsAndReturnsNest :
    ∃ s t u v : State, s.sp.val = 15 ∧ exec (.call 0x300) s = .next t ∧ u.sp = t.sp ∧
      (∀ j : Fin 16, j.val < t.sp.val → u.stack[j.val] = t.stack[j.val]) ∧ exec (.ret 0) u = .next v :=
  ⟨{ State.reset with sp := 15 }, _, _, _, rfl, rfl, rfl, fun _ _ => rfl, rfl⟩

theorem witness_SkipsOnImmediate :
    (∃ s : State, s.getV 15 = 0xFF) ∧ (∃ s : State, s.getV 15 ≠ 0xFF) :=
  ⟨⟨regs [(15, 0xFF)], by decide⟩, ⟨State.reset, by decide⟩⟩

theorem witness_SkipsOnRegisters :
    (∃ s : State, s.getV 0 = s.getV 15) ∧ (∃ s : State, s.getV 0 ≠ s.getV 15) ∧ (∃ x y : Reg, x = y) :=
  ⟨⟨State.reset, by decide⟩, ⟨regs [(15, 1)], by decide⟩, ⟨15, 15, rfl⟩⟩

theorem witness_JumpWithOffsetAddsV0 :
    ∃ (s : State) (nnn : BitVec 12), s.fault = none ∧ (s.getV 0).toNat + nnn.toNat > 0xFFE ∧
      (s.getV 0).toNat + nnn.toNat = 0xFFF := ⟨regs [(0, 1)], 0xFFE, by decide⟩

/-- For the three statements on flag writers: a destination that is not `VF`, and the one that is. -/
theorem witness_AddSetsSumAndCarry_SubtractsSetDifferenceAndFlag_ShiftsSetResultAndLostBit :
    (∃ x : Reg, x ≠ 15) ∧ (∃ x : Reg, x = 15) := ⟨⟨14, by decide⟩, ⟨15, rfl⟩⟩

theorem witness_RandomIsMaskedDraw : (∃ kk : Byte, kk = 0) ∧ (∃ kk : Byte, kk = 0xFF) := ⟨⟨_, rfl⟩, ⟨_, rfl⟩⟩

theorem witness_FlagRegisterIsOrdinary :
    (∃ s t : State, exec (.addReg 1 2) s = .next t ∧ t.getV 15 ≠ s.getV 15) ∧
    (∃ s t : State, exec (.ldVxMem 15) s = .next t ∧ t.getV 15 ≠ s.getV 15) ∧
    (∃ s t : State, namesFlag (.addReg 1 2) = false ∧ exec (.addReg 1 2) s = .next t) :=
  ⟨⟨regs [(1, 0xFF), (2, 1)], _, rfl, by decide⟩, ⟨State.reset, _, rfl, by decide⟩, ⟨State.reset, _, rfl, rfl⟩⟩

/-- With `LD F, V3` itself in memory as the next instruction. -/
theorem witness_FontAddressIsFiveTimesDigit :
    let s := (regs [(3, 15)]).withFetchWord 16 0xF329
    (s.getV 3).toNat < 16 ∧ (s.getV 3).toNat = 15 ∧ decode (Memory.fetchWord s.mem s.pc.toNat) = .ldF 3 ∧
      ∀ a, a < 0x50 → Memory.read s.mem a = fontBytes.getD a 0 := by
  refine ⟨by decide, by decide, by decide, fun a ha => ?_⟩
  rw [withFetchWord_mem, read_storeBytes, if_neg]
  · rfl
  · intro h
    have : 0x200 ≤ a := h.1
    omega

theorem witness_StoreBcdWritesDigits :
    (∃ s : State, s.i.toNat + 2 > 0xFFF ∧ s.i = 0xFFE) ∧ (∃ s : State, s.i.toNat + 2 ≤ 0xFFF ∧ s.i = 0xFFD) :=
  ⟨⟨regsI 0xFFE [], by decide⟩, ⟨regsI 0xFFD [], by decide⟩⟩

theorem witness_RegisterDumpStoresRange :
    (∃ s : State, s.i.toNat + (15 : Reg).val > 0xFFF ∧ s.i = 0xFF1) ∧
    (∃ s : State, s.i.toNat + (15 : Reg).val ≤ 0xFFF ∧ s.i = 0xFF0 ∧ (15 : Reg) ≤ 15) :=
  ⟨⟨regsI 0xFF1 [], by decide⟩, ⟨regsI 0xFF0 [], by decide⟩⟩

theorem witness_RegisterLoadReadsRange :
    (∃ s : State, s.i.toNat + (14 : Reg).val > 0xFFF ∧ s.i = 0xFF2) ∧
    (∃ s t : State, s.i.toNat + (14 : Reg).val ≤ 0xFFF ∧ s.i = 0xFF1 ∧ exec (.ldMemVx 14) s = .next t ∧
      (14 : Reg) ≤ 14 ∧ (14 : Reg) < 15) :=
  ⟨⟨regsI 0xFF2 [], by decide⟩, ⟨regsI 0xFF1 [], _, by decide, rfl, rfl, by decide, by decide⟩⟩

theorem witness_StoreIsSeenByNextFetch :
    ∃ s t : State, s.fetches ∧ decode (Memory.fetchWord s.mem s.pc.toNat) = .ldMemVx 1 ∧
      s.i.toNat + (1 : Reg).val ≤ 0xFFF ∧ (1 : Reg).val = (0 : Reg).val + 1 ∧ (1 : Reg) ≤ 1 ∧
      s.i.toNat + (0 : Reg).val = s.pc.toNat + 2 ∧ step s = .next t :=
  ⟨State.withFetchWord (regsI 0x202 [(0, 0x60), (1, 0x42)]) 16 0xF155, _, ⟨rfl, by decide⟩, by decide, by decide, by decide,
   by decide, by decide, rfl⟩

theorem witness_KeySkipsTestNamedKey :
    (∃ s : State, (s.getV 2).toNat > 15 ∧ s.getV 2 = 16) ∧
    (∃ s : State, (s.getV 2).toNat = (15 : Fin 16).val ∧ s.keys[15] = true) ∧
    (∃ s : State, (s.getV 2).toNat = (15 : Fin 16).val ∧ s.keys[15] = false) :=
  ⟨⟨regs [(2, 16)], by decide⟩, ⟨keySet 15 true (regs [(2, 15)]), by decide⟩, ⟨regs [(2, 15)], by decide⟩⟩

theorem witness_WaitForKeyTakesPressedKey :
    (∃ s : State, ∀ k : Fin 16, s.keys[k.val] = false) ∧
    (∃ s : State, s.keys[15] = true ∧ ∃ k : Fin 16, s.keys[k.val] = true) :=
  ⟨⟨State.reset, by decide⟩, ⟨keySet 15 true State.reset, by decide, 15, by decide⟩⟩

theorem witness_DelayTimerOnlyFalls :
    (∃ s t : State, event .tick s = .next t ∧ t.dt ≠ s.dt) ∧
    (∃ s t : State, event .step s = .next t ∧ ∀ x, decode (Memory.fetchWord s.mem s.pc.toNat) ≠ .ldDtVx x) :=
  ⟨⟨{ State.reset with dt := 1 }, _, rfl, by decide⟩, ⟨State.reset, _, rfl, by decide⟩⟩

theorem witness_DirtyIsSetByCoreClearedByPresenter :
    (∃ s t : State, step s = .next t ∧ s.dirty = true) ∧
    (∃ s : State, s.i.toNat + (1 : Nibble).toNat - 1 ≤ 0xFFF ∧ s.i = 0xFFF ∧ ∃ p, covers s 0 1 1 p) ∧
    (∃ s t : State, step s = .next t ∧ t.dirty ≠ s.dirty) :=
  ⟨⟨{ State.reset with dirty := true }, _, rfl, rfl⟩,
   ⟨{ regsI 0xFFF [] with mem := Memory.write [] 0xFFF 0x80 }, by decide, rfl, 0, 0, 0, by decide, by decide, by decide,
    by decide⟩,
   ⟨State.reset.withFetchWord 16 0x00E0, _, rfl, by decide⟩⟩

theorem witness_DrawXorsCoveredCells :
    (∃ s : State, (15 : Nibble) ≠ 0 ∧ s.i.toNat + (15 : Nibble).toNat - 1 > 0xFFF ∧ s.i = 0xFF2) ∧
    (∃ s : State, s.i.toNat + (15 : Nibble).toNat - 1 ≤ 0xFFF ∧ s.i = 0xFF1) ∧ (∃ n : Nibble, n = 0) ∧
    (∃ s : State, covers s 0 1 5 0 ∧ FrameBuffer.cell s.fb 0 = true) ∧
    (∃ s : State, ¬ ∃ p, covers s 0 1 5 p ∧ FrameBuffer.cell s.fb p = true) :=
  ⟨⟨regsI 0xFF2 [], by decide⟩, ⟨regsI 0xFF1 [], by decide⟩, ⟨0, rfl⟩,
   ⟨{ State.reset with fb := FrameBuffer.flip FrameBuffer.blank 0 }, ⟨0, 0, by decide, by decide, by decide, by decide⟩, by decide⟩,
   ⟨State.reset, fun ⟨p, _, h⟩ => absurd h (by rw [show State.reset.fb = FrameBuffer.blank from rfl]; simp)⟩⟩

theorem witness_DrawingTwiceRestores :
    ∃ s t : State, s.i.toNat + (5 : Nibble).toNat - 1 ≤ 0xFFF ∧ exec (.drw 0 1 5) s = .next t ∧ t.getV 0 = s.getV 0 ∧
      t.getV 1 = s.getV 1 ∧ ∀ p, covers s 0 1 5 p → FrameBuffer.cell s.fb p = false :=
  ⟨State.reset, _, by decide, rfl, by decide, by decide, fun p _ => cell_blank p⟩

theorem witness_GapsOnlyEmitDiagnostic :
    decode 0xFFFF = .gap 0xFFFF ∧ (∃ nnn : BitVec 12, nnn.toNat % 0x100 ≠ 0xE0 ∧ nnn.toNat % 0x100 ≠ 0xEE) :=
  ⟨by decide, 0xFEF, by decide⟩

theorem witness_ZeroedMemoryRunsToFetchFault :
    (∃ s : State, s.fault = none ∧ s.pc.toNat + 2 * 1 = (0x1000 : Word).toNat ∧
      ∀ a, s.pc.toNat ≤ a → a < 0x1000 → Memory.read s.mem a = 0) ∧
    (∃ s : State, s.fault = none ∧ s.pc.toNat + 2 * 0 = (0x1000 : Word).toNat ∧
      ∀ a, s.pc.toNat ≤ a → a < 0x1000 → Memory.read s.mem a = 0) ∧
    (∃ s : State, s.fault = none ∧ s.pc.toNat + 2 * 0 = (0xFFF : Word).toNat ∧
      ∀ a, s.pc.toNat ≤ a → a < 0x1000 → Memory.read s.mem a = 0) := by
  refine ⟨⟨{ State.reset with pc := 0xFFE }, rfl, by decide, fun a h1 h2 => ?_⟩,
    ⟨{ State.reset with pc := 0x1000 }, rfl, by decide, fun a h1 h2 => ?_⟩,
    ⟨{ State.reset with pc := 0xFFF }, rfl, by decide, fun a h1 h2 => ?_⟩⟩
  · have h1 : 0xFFE ≤ a := h1
    have : a = 0xFFE ∨ a = 0xFFF := by omega
    rcases this with rfl | rfl <;> decide
  · have h1 : 0x1000 ≤ a := h1
    omega
  · have h1 : 0xFFF ≤ a := h1
    obtain rfl : a = 0xFFF := by omega
    decide

theorem witness_ResetLoadsImage :
    (∃ image : List Byte, image.length > 3584 ∧ image.length = 3585) ∧
    (∃ image : List Byte, image.length ≤ 3584 ∧ image.length = 3584) :=
  ⟨⟨List.replicate 3585 0, by rw [List.length_replicate]; omega⟩,
   ⟨List.replicate 3584 0, by rw [List.length_replicate]; omega⟩⟩

theorem witness_WritersOfEachElement :
    (∃ s t : State, step s = .next t ∧ t.getV 1 ≠ s.getV 1) ∧ (∃ s t : State, step s = .next t ∧ t.i ≠ s.i) ∧
    (∃ s t : State, step s = .next t ∧ t.sp ≠ s.sp) ∧ (∃ s t : State, step s = .next t ∧ t.dt ≠ s.dt) ∧
    (∃ s t : State, step s = .next t ∧ t.st ≠ s.st) ∧ (∃ s t : State, step s = .next t ∧ t.fb ≠ s.fb ∧ t.dirty ≠ s.dirty) ∧
    (∃ s t : State, step s = .next t ∧ t.mem ≠ s.mem) ∧ (∃ s t : State, step s = .next t ∧ t.fault ≠ s.fault) :=
  ⟨⟨State.reset.withFetchWord 16 0x61AB, _, rfl, by decide⟩, ⟨State.reset.withFetchWord 16 0xA2F0, _, rfl, by decide⟩,
   ⟨State.reset.withFetchWord 16 0x2300, _, rfl, by decide⟩, ⟨(regs [(4, 5)]).withFetchWord 16 0xF415, _, rfl, by decide⟩,
   ⟨(regs [(4, 5)]).withFetchWord 16 0xF418, _, rfl, by decide⟩, ⟨State.reset.withFetchWord 16 0xD015, _, rfl, by decide⟩,
   ⟨(regsI 0x300 [(0, 5)]).withFetchWord 16 0xF055, _, rfl, by decide⟩,
   ⟨State.reset.withFetchWord 16 0x00EE, _, rfl, by decide⟩⟩

theorem witness_SoundDirtyAndDiagnosticsAreUnread : ∃ s t : State, step s = .next t :=
  ⟨State.reset.withFetchWord 16 0xD015, _, rfl⟩

theorem witness_OnlyRandomAndWaitReadDraws :
    ∃ s t : State, (∀ x kk, Instr.drw 0 1 5 ≠ .rnd x kk) ∧ (∀ x, Instr.drw 0 1 5 ≠ .ldVxK x) ∧
      exec (.drw 0 1 5) s = .next t := ⟨State.reset, _, by simp, by simp, rfl⟩

end Sys2Proof.Tests
end

section
/-! PROOF. What an executed instruction can do to memory, the stack and `pc`, said once for every instruction, and from it what
steps, events and runs of events keep. -/

namespace Sys2Proof.Machine

/-! ## What an instruction can do to memory, the stack and `pc` -/

/-- What an instruction that runs on the dispatched state `s` can do to memory, the stack and `pc`; of the other elements it says
nothing. A raised fault moves `pc` back, as a wait for a key does. -/
inductive Effect (s t : State) : Prop where
  | stays (hmem : t.mem = s.mem) (hstack : t.stack = s.stack) (hpc : t.pc = s.pc)
  | skips (hmem : t.mem = s.mem) (hstack : t.stack = s.stack) (hpc : t.pc = s.pc + 2)
  | goesBack (hmem : t.mem = s.mem) (hstack : t.stack = s.stack) (hpc : t.pc = s.pc - 2)
  | jumps (hmem : t.mem = s.mem) (hstack : t.stack = s.stack) (hpc : t.pc.toNat ≤ 0x10FE)
  | calls (j : Fin 16) (hmem : t.mem = s.mem) (hstack : t.stack = s.stack.set j.val s.pc) (hpc : t.pc.toNat ≤ 0x10FE)
  | returns (j : Fin 16) (hmem : t.mem = s.mem) (hstack : t.stack = s.stack) (hpc : t.pc = s.stack[j.val])
  | stores (bs : List Byte) (hfits : s.i.toNat + bs.length ≤ Config.memBytes)
      (hmem : t.mem = Memory.storeBytes s.mem s.i.toNat bs) (hstack : t.stack = s.stack) (hpc : t.pc = s.pc)

/-- The outcome is a next state, reached from `s` by an `Effect`. -/
def AnswersEffect (s : State) (r : Result) : Prop := ∃ t, r = .next t ∧ Effect s t

/-! ## The effect of each shared operation -/

theorem latchFault_effect (f : Fault) (n : Nat) (s : State) :
    AnswersEffect s (.next (latchFault f (s.pc - 2) n s)) := ⟨_, rfl, .goesBack rfl rfl rfl⟩

theorem writeReg_effect (x : Reg) (b : Byte) (s : State) : AnswersEffect s (writeReg x b s) :=
  ⟨_, rfl, .stays rfl rfl rfl⟩

theorem writeFlagged_effect (x : Reg) (f b : Byte) (s : State) : AnswersEffect s (writeFlagged x f b s) :=
  ⟨_, rfl, .stays rfl rfl rfl⟩

theorem emitDiag_effect (w : Word) (s : State) : AnswersEffect s (emitDiag w s) := ⟨_, rfl, .stays rfl rfl rfl⟩

theorem skipIf_effect (c : Bool) (s : State) : AnswersEffect s (skipIf c s) := by
  cases c
  · exact ⟨_, rfl, .stays rfl rfl rfl⟩
  · exact ⟨_, rfl, .skips rfl rfl rfl⟩

theorem jumpTo_effect (target : Word) (s : State) (h : target.toNat ≤ 0x10FE) : AnswersEffect s (jumpTo target s) :=
  ⟨_, rfl, .jumps rfl rfl h⟩

theorem pushAndJump_effect (target : Word) (s : State) (h : target.toNat ≤ 0x10FE) :
    AnswersEffect s (pushAndJump target s) := by
  obtain ⟨j, -, hr⟩ | ⟨-, hr⟩ := pushAndJump_cases target s
  · exact ⟨_, hr, .calls j rfl rfl h⟩
  · exact hr ▸ latchFault_effect ..

theorem popToPc_effect (s : State) : AnswersEffect s (popToPc s) := by
  obtain ⟨j, -, hr⟩ | ⟨-, hr⟩ := popToPc_cases s
  · exact ⟨_, hr, .returns j rfl rfl rfl⟩
  · exact hr ▸ latchFault_effect ..

theorem waitKeyWith_effect (draw : Nat) (x : Reg) (s : State) : AnswersEffect s (waitKeyWith draw x s) := by
  obtain ⟨k, -, hr⟩ | ⟨-, hr⟩ := waitKeyWith_cases draw x s
  · exact ⟨_, hr, .stays rfl rfl rfl⟩
  · exact ⟨_, hr, .goesBack rfl rfl rfl⟩

theorem withKey_effect (x : Reg) (go : Bool → State → Result) (s : State) (h : ∀ b, AnswersEffect s (go b s)) :
    AnswersEffect s (withKey x go s) := by
  obtain ⟨k, -, hr⟩ | ⟨-, hr⟩ := withKey_cases x go s
  · exact hr ▸ h _
  · exact hr ▸ latchFault_effect ..

theorem withRange_effect (len : Nat) (go : State → Result) (s : State)
    (h : s.rangeOk len = true → AnswersEffect s (go s)) : AnswersEffect s (withRange len go s) := by
  obtain ⟨hok, hr⟩ | ⟨-, hr⟩ := withRange_cases len go s
  · exact hr ▸ h hok
  · exact hr ▸ latchFault_effect ..

/-- A nonempty range that the check accepts ends inside memory. -/
theorem range_fits (s : State) (len : Nat) (hlen : len ≠ 0) (h : s.rangeOk len = true) :
    s.i.toNat + len ≤ Config.memBytes := by
  have h := (rangeOk_iff s len).1 h
  show _ ≤ 0x1000
  omega

/-- A store of the whole checked range. -/
theorem storeRange_effect (len : Nat) (bytes : State → List Byte) (s : State) (hlen : len ≠ 0)
    (hbytes : (bytes s).length = len) :
    AnswersEffect s
      (withRange len (fun s => .next { s with mem := Memory.storeBytes s.mem s.i.toNat (bytes s) }) s) :=
  withRange_effect _ _ _ fun hok =>
    ⟨_, rfl, .stores (bytes s) (by rw [hbytes]; exact range_fits s len hlen hok) rfl rfl rfl⟩

/-! ## The effect of every instruction -/

theorem zextAddr_toNat_le (nnn : BitVec 12) : (zextAddr nnn).toNat ≤ 0xFFF := by
  have := nnn.isLt
  simp [zextAddr]; omega

/-- The target of `JP V0, nnn` is at most `0xFFF + 0xFF` (10_state.md R23). -/
theorem jpV0Target_toNat_le (b : Byte) (nnn : BitVec 12) : (zextByte b + zextAddr nnn).toNat ≤ 0x10FE := by
  have hn := nnn.isLt
  have hb := b.isLt
  simp [zextByte, zextAddr]; omega

theorem execDrw_effect (x y : Reg) (n : Nibble) (s : State) : AnswersEffect s (execDrw x y n s) :=
  withRange_effect _ _ _ fun _ => ⟨_, rfl, .stays rfl rfl rfl⟩

theorem execLdB_effect (x : Reg) (s : State) : AnswersEffect s (execLdB x s) :=
  storeRange_effect 3 (fun s => bcdDigits (s.getV x)) s (by decide) rfl

theorem execLdMemVx_effect (x : Reg) (s : State) : AnswersEffect s (execLdMemVx x s) :=
  storeRange_effect (x.val + 1) (·.regsUpTo x) s (Nat.succ_ne_zero _) (length_regsUpTo s x)

theorem execLdVxMem_effect (x : Reg) (s : State) : AnswersEffect s (execLdVxMem x s) :=
  withRange_effect _ _ _ fun _ => ⟨_, rfl, .stays rfl rfl rfl⟩

/-- Every instruction answers a next state, reached by an `Effect`. -/
theorem exec_effect (i : Instr) (s : State) : AnswersEffect s (exec i s) := by
  cases i with
  | cls | ldI | addI | ldF | ldDtVx | ldStVx | rnd => exact ⟨_, rfl, .stays rfl rfl rfl⟩
  | sys | gap => exact emitDiag_effect ..
  | ldImm | addImm | ldReg | orReg | andReg | xorReg | ldVxDt => exact writeReg_effect ..
  | addReg | subReg | shr | subnReg | shl => exact writeFlagged_effect ..
  | seImm | sneImm | seReg | sneReg => exact skipIf_effect ..
  | skp | sknp => exact withKey_effect _ _ _ fun _ => skipIf_effect ..
  | ldVxK => exact waitKeyWith_effect ..
  | jp nnn => exact jumpTo_effect _ _ ((zextAddr_toNat_le nnn).trans (by decide))
  | jpV0 nnn => exact jumpTo_effect _ _ (jpV0Target_toNat_le _ nnn)
  | call nnn => exact pushAndJump_effect _ _ ((zextAddr_toNat_le nnn).trans (by decide))
  | ret => exact popToPc_effect s
  | drw => exact execDrw_effect ..
  | ldB => exact execLdB_effect ..
  | ldMemVx => exact execLdMemVx_effect ..
  | ldVxMem => exact execLdVxMem_effect ..

/-! ## What an effect keeps -/

/-- The part of the invariant that is about control: the bounds on `pc` (10_state.md R23) and on every stack entry
(41_control_flow.md R150). -/
def State.ControlBounded (s : State) : Prop := s.pc.toNat ≤ 0x10FE ∧ ∀ j : Fin 16, s.stack[j.val].toNat ≤ 0x1000

theorem inv_iff (s : State) : s.Inv ↔ Memory.wf s.mem ∧ s.ControlBounded := Iff.rfl

theorem Effect.keeps_wf {s t : State} (h : Effect s t) (hwf : Memory.wf s.mem) : Memory.wf t.mem := by
  cases h with
  | stays hmem | skips hmem | goesBack hmem | jumps hmem => exact hmem ▸ hwf
  | calls _ hmem | returns _ hmem => exact hmem ▸ hwf
  | stores bs hfits hmem => exact hmem ▸ storeBytes_wf bs _ _ hwf hfits

/-- A pushed entry keeps the bound on the stack if it meets it. -/
theorem stack_set_le (stack : Vector Word 16) (w : Word) (j : Fin 16) (hw : w.toNat ≤ 0x1000)
    (hstack : ∀ k : Fin 16, stack[k.val].toNat ≤ 0x1000) (k : Fin 16) :
    (stack.set j.val w)[k.val].toNat ≤ 0x1000 := by
  rw [Vector.getElem_set]
  split
  · exact hw
  · exact hstack k

/-- The instruction was fetched at most at `0xFFE`, so `pc` is at most `0x1000` when it is pushed and `0x1002` after a skip. -/
theorem Effect.keeps_controlBounded {s t : State} (h : Effect s.advance t) (hfetch : s.pc.toNat ≤ 0xFFE)
    (hs : s.ControlBounded) : t.ControlBounded := by
  obtain ⟨-, hentries⟩ := hs
  cases h with
  | stays _ hstack hpc | skips _ hstack hpc | goesBack _ hstack hpc | stores _ _ _ hstack hpc =>
    refine ⟨?_, hstack ▸ hentries⟩
    rw [hpc, advance_pc]; bv_omega
  | jumps _ hstack hpc => exact ⟨hpc, hstack ▸ hentries⟩
  | calls j _ hstack hpc =>
    have hret : s.advance.pc.toNat ≤ 0x1000 := by rw [advance_pc]; bv_omega
    exact ⟨hpc, hstack ▸ stack_set_le _ _ j hret hentries⟩
  | returns j _ hstack hpc => exact ⟨hpc ▸ (hentries j).trans (by decide), hstack ▸ hentries⟩

/-! ## What every step keeps -/

/-- A step leaves memory, the stack and `pc` alone (the core is stuck, or the fetch faults), or it fetched inside memory and ran
one instruction. -/
theorem step_effect {s t : State} (h : step s = .next t) :
    (t.mem = s.mem ∧ t.stack = s.stack ∧ t.pc = s.pc) ∨ (s.pc.toNat ≤ 0xFFE ∧ Effect s.advance t) := by
  obtain ⟨-, hr⟩ | ⟨-, -, hr⟩ | ⟨⟨-, hfetch⟩, hr⟩ := step_cases s
  · cases hr.symm.trans h; exact .inl ⟨rfl, rfl, rfl⟩
  · cases hr.symm.trans h; exact .inl ⟨rfl, rfl, rfl⟩
  · obtain ⟨u, hu, heff⟩ := exec_effect (decode (Memory.fetchWord s.mem s.pc.toNat)) s.advance
    cases (hr.trans hu).symm.trans h
    exact .inr ⟨hfetch, heff⟩

theorem step_keeps_wf {s t : State} (h : step s = .next t) (hwf : Memory.wf s.mem) : Memory.wf t.mem := by
  obtain ⟨hmem, -, -⟩ | ⟨-, heff⟩ := step_effect h
  · exact hmem ▸ hwf
  · exact heff.keeps_wf hwf

theorem step_keeps_controlBounded {s t : State} (h : step s = .next t) (hs : s.ControlBounded) : t.ControlBounded := by
  obtain ⟨-, hstack, hpc⟩ | ⟨hfetch, heff⟩ := step_effect h
  · obtain ⟨hle, hentries⟩ := hs
    exact ⟨hpc ▸ hle, hstack ▸ hentries⟩
  · exact heff.keeps_controlBounded hfetch hs

/-! ## What every event keeps -/

/-- A `Reset` that answers a next state had an image that fits. -/
theorem resetWith_next {image : List Byte} {s t : State} (h : resetWith image s = .next t) :
    image.length ≤ 3584 ∧
      t = { State.reset with mem := Memory.storeBytes [] 0x200 image, draws := s.draws, diags := s.diags } := by
  by_cases hfits : image.length ≤ 3584
  · rw [resetWith_fits image s hfits] at h
    exact ⟨hfits, by cases h; rfl⟩
  · rw [resetWith_refused image s (Nat.lt_of_not_le hfits)] at h
    cases h

theorem reset_controlBounded : State.reset.ControlBounded := ⟨by decide, by decide⟩

theorem poke_keeps_wf (p : Poke) (s : State) (hwf : Memory.wf s.mem) : Memory.wf (poke p s).mem := by
  cases p with
  | mem a b => exact write_wf s.mem a.val b hwf a.isLt
  | reg | index | pc | delay | sound => exact hwf

theorem poke_keeps_controlBounded (p : Poke) (s : State) (hp : (Event.poke p).pokesPc = false)
    (hs : s.ControlBounded) : (poke p s).ControlBounded := by
  cases p with
  | pc w => cases hp
  | reg | index | mem | delay | sound => exact hs

theorem event_keeps_wf {e : Event} {s t : State} (h : event e s = .next t) (hwf : Memory.wf s.mem) :
    Memory.wf t.mem := by
  cases e with
  | step => exact step_keeps_wf h hwf
  | tick | keySet | dirtyClear => cases h; exact hwf
  | reset image =>
    obtain ⟨hfits, rfl⟩ := resetWith_next h
    exact storeBytes_wf image [] 0x200 nil_wf (show _ ≤ 0x1000 by omega)
  | poke p => cases h; exact poke_keeps_wf p s hwf

theorem event_keeps_controlBounded {e : Event} {s t : State} (h : event e s = .next t) (hp : e.pokesPc = false)
    (hs : s.ControlBounded) : t.ControlBounded := by
  cases e with
  | step => exact step_keeps_controlBounded h hs
  | tick | keySet | dirtyClear => cases h; exact hs
  | reset image =>
    obtain ⟨-, rfl⟩ := resetWith_next h
    exact reset_controlBounded
  | poke p => cases h; exact poke_keeps_controlBounded p s hp hs

/-! ## Runs of events -/

theorem runEvents_nil_next {s t : State} : runEvents [] s = .next t ↔ s = t := by simp [runEvents]

/-- A run that answers a next state went through a next state at its first event. -/
theorem runEvents_cons_next {e : Event} {es : List Event} {s t : State} :
    runEvents (e :: es) s = .next t ↔ ∃ u, event e s = .next u ∧ runEvents es u = .next t := by
  rw [runEvents]
  cases event e s <;> simp

/-- What every event of a kind keeps, every run of such events keeps. -/
theorem runEvents_keeps {allowed : Event → Prop} {P : State → Prop}
    (hevent : ∀ {e s t}, allowed e → event e s = .next t → P s → P t) {es : List Event} :
    ∀ {s t : State}, runEvents es s = .next t → (∀ e ∈ es, allowed e) → P s → P t := by
  induction es with
  | nil =>
    intro s t hrun _ hs
    exact runEvents_nil_next.1 hrun ▸ hs
  | cons e es ih =>
    intro s t hrun hall hs
    obtain ⟨u, he, hrun⟩ := runEvents_cons_next.1 hrun
    obtain ⟨hallowed, hall⟩ := List.forall_mem_cons.1 hall
    exact ih hrun hall (hevent hallowed he hs)

theorem runEvents_keeps_wf {es : List Event} {s t : State} (h : runEvents es s = .next t) (hwf : Memory.wf s.mem) :
    Memory.wf t.mem :=
  runEvents_keeps (allowed := fun _ => True) (P := fun s => Memory.wf s.mem) (fun _ => event_keeps_wf) h
    (fun _ _ => trivial) hwf

theorem runEvents_keeps_controlBounded {es : List Event} {s t : State} (h : runEvents es s = .next t)
    (hp : ∀ e ∈ es, e.pokesPc = false) (hs : s.ControlBounded) : t.ControlBounded :=
  runEvents_keeps (fun hp he => event_keeps_controlBounded he hp) h hp hs

/-- Settles O16: every event keeps the canonical form of memory, every event but a debug write of `pc` keeps the bounds on `pc`
and the stack, and so does a run, by induction on its list of events. -/
theorem runsKeepInvariant : Obligations.RunsKeepInvariant := by
  intro es s t hrun
  refine ⟨runEvents_keeps_wf hrun, fun hinv hp => ?_⟩
  obtain ⟨hwf, hbounded⟩ := (inv_iff s).1 hinv
  exact (inv_iff t).2 ⟨runEvents_keeps_wf hrun hwf, runEvents_keeps_controlBounded hrun hp hbounded⟩

end Sys2Proof.Machine
end

section
/-! PROOF. The invariant at reset and along steps, from what every step keeps of memory and of control. -/

namespace Sys2Proof.Machine

/-- Settles O15: empty memory is canonical, and the reset values of `pc` and of the stack meet the bounds. -/
theorem resetMeetsInvariant : Obligations.ResetMeetsInvariant :=
  (inv_iff State.reset).2 ⟨nil_wf, reset_controlBounded⟩

/-- Settles O14: a step keeps the canonical form of memory, and it keeps the bounds on `pc` and on the stack, because it fetched
at most at `0xFFE`. -/
theorem stepKeepsInvariant : Obligations.StepKeepsInvariant := by
  intro s t hinv hstep
  obtain ⟨hwf, hbounded⟩ := (inv_iff s).1 hinv
  exact (inv_iff t).2 ⟨step_keeps_wf hstep hwf, step_keeps_controlBounded hstep hbounded⟩

end Sys2Proof.Machine
end

section
/-! PROOF. Who writes what (10_state.md R36): the elements an instruction may write, said once for every instruction, and from it
which elements a step may change and which fault it latches (60_exceptions.md R260). -/

namespace Sys2Proof.Machine

open Sys2Proof.Claims

/-! ## Differing in named elements only -/

/-- `t` differs from `s` at most in the elements `w`. Stronger than `changesOnly s t w`: memory, the stack, the keys and the frame
buffer are equal as data unless `w` names every element of theirs. -/
structure WritesOnly (w : Element → Prop) (s t : State) : Prop where
  reg : ∀ r, t.getV r = s.getV r ∨ w (.reg r)
  index : t.i = s.i ∨ w .index
  pc : t.pc = s.pc ∨ w .pc
  depth : t.sp = s.sp ∨ w .depth
  stack : t.stack = s.stack ∨ ∀ j, w (.entry j)
  delay : t.dt = s.dt ∨ w .delay
  sound : t.st = s.st ∨ w .sound
  keys : t.keys = s.keys ∨ ∀ k, w (.key k)
  fb : t.fb = s.fb ∨ ∀ p, w (.cell p)
  dirty : t.dirty = s.dirty ∨ w .dirty
  mem : t.mem = s.mem ∨ ∀ a, w (.byte a)
  fault : t.fault = s.fault ∨ w .fault
  draws : t.draws = s.draws ∨ w .draws
  diags : t.diags = s.diags ∨ w .diags

section
variable {w : Element → Prop} {s t : State}

theorem WritesOnly.refl : WritesOnly w s s := by constructor <;> intros <;> exact .inl rfl

theorem WritesOnly.setV {x : Reg} (b : Byte) (h : WritesOnly w s t) (hx : w (.reg x)) : WritesOnly w s (t.setV x b) :=
  { h with
    reg := fun r => by
      rw [getV_setV]
      split
      next hxr => exact .inr (hxr ▸ hx)
      next => exact h.reg r }

theorem WritesOnly.changesOnly (h : WritesOnly w s t) : changesOnly s t w := by
  intro e he
  cases e with
  | reg r => exact (h.reg r).resolve_right he
  | index => exact h.index.resolve_right he
  | pc => exact h.pc.resolve_right he
  | depth => exact h.depth.resolve_right he
  | entry j => exact congrArg (·[j.val]) (h.stack.resolve_right fun hall => he (hall j))
  | delay => exact h.delay.resolve_right he
  | sound => exact h.sound.resolve_right he
  | key k => exact congrArg (·[k.val]) (h.keys.resolve_right fun hall => he (hall k))
  | cell p => exact congrArg (FrameBuffer.cell · p.val) (h.fb.resolve_right fun hall => he (hall p))
  | dirty => exact h.dirty.resolve_right he
  | byte a => exact congrArg (Memory.read · a) (h.mem.resolve_right fun hall => he (hall a))
  | fault => exact h.fault.resolve_right he
  | draws => exact h.draws.resolve_right he
  | diags => exact h.diags.resolve_right he

end

/-- The outcome is a next state that differs from `s` at most in the elements `w`. -/
def AnswersWithin (w : Element → Prop) (s : State) (r : Result) : Prop := ∃ t, r = .next t ∧ WritesOnly w s t

/-! ## What each shared operation writes -/

section
variable {w : Element → Prop} {s : State}

theorem writeReg_within {x : Reg} (b : Byte) (hx : w (.reg x)) : AnswersWithin w s (writeReg x b s) :=
  ⟨_, rfl, WritesOnly.refl.setV b hx⟩

theorem writeFlagged_within {x : Reg} (f b : Byte) (hx : w (.reg x)) (hflag : w (.reg Reg.flag)) :
    AnswersWithin w s (writeFlagged x f b s) :=
  ⟨_, rfl, (WritesOnly.refl.setV f hflag).setV b hx⟩

/-- A register write of an instruction that uses up a draw. -/
theorem writesOnly_drawn {x : Reg} (b : Byte) (hx : w (.reg x)) (hdraws : w .draws) :
    WritesOnly w s (({ s with draws := s.draws + 1 }).setV x b) :=
  WritesOnly.setV b { WritesOnly.refl with draws := .inr hdraws } hx

theorem emitDiag_within (d : Word) (hdiags : w .diags) : AnswersWithin w s (emitDiag d s) :=
  ⟨_, rfl, { WritesOnly.refl with diags := .inr hdiags }⟩

theorem jumpTo_within (target : Word) (hpc : w .pc) : AnswersWithin w s (jumpTo target s) :=
  ⟨_, rfl, { WritesOnly.refl with pc := .inr hpc }⟩

theorem skipIf_within (c : Bool) (hpc : w .pc) : AnswersWithin w s (skipIf c s) :=
  skipIf_eq c s ▸ jumpTo_within _ hpc

theorem latchFault_within (f : Fault) (a : Word) (n : Nat) (hpc : w .pc) (hfault : w .fault) :
    AnswersWithin w s (.next (latchFault f a n s)) :=
  ⟨_, rfl, { WritesOnly.refl with pc := .inr hpc, fault := .inr hfault }⟩

theorem pushAndJump_within (target : Word) (hpc : w .pc) (hdepth : w .depth) (hstack : ∀ j, w (.entry j))
    (hfault : w .fault) : AnswersWithin w s (pushAndJump target s) := by
  obtain ⟨j, -, hr⟩ | ⟨-, hr⟩ := pushAndJump_cases target s
  · exact ⟨_, hr, { WritesOnly.refl with pc := .inr hpc, depth := .inr hdepth, stack := .inr hstack }⟩
  · exact hr ▸ latchFault_within _ _ _ hpc hfault

theorem popToPc_within (hpc : w .pc) (hdepth : w .depth) (hfault : w .fault) : AnswersWithin w s (popToPc s) := by
  obtain ⟨j, -, hr⟩ | ⟨-, hr⟩ := popToPc_cases s
  · exact ⟨_, hr, { WritesOnly.refl with pc := .inr hpc, depth := .inr hdepth }⟩
  · exact hr ▸ latchFault_within _ _ _ hpc hfault

theorem waitKeyWith_within (draw : Nat) {x : Reg} (hx : w (.reg x)) (hpc : w .pc) (hdraws : w .draws) :
    AnswersWithin w s (waitKeyWith draw x s) := by
  obtain ⟨k, -, hr⟩ | ⟨-, hr⟩ := waitKeyWith_cases draw x s
  · exact ⟨_, hr, writesOnly_drawn _ hx hdraws⟩
  · exact hr ▸ jumpTo_within _ hpc

theorem withKey_within (x : Reg) {go : Bool → State → Result} (hpc : w .pc) (hfault : w .fault)
    (hgo : ∀ b, AnswersWithin w s (go b s)) : AnswersWithin w s (withKey x go s) := by
  obtain ⟨k, -, hr⟩ | ⟨-, hr⟩ := withKey_cases x go s
  · exact hr ▸ hgo _
  · exact hr ▸ latchFault_within _ _ _ hpc hfault

theorem withRange_within (len : Nat) {go : State → Result} (hpc : w .pc) (hfault : w .fault)
    (hgo : AnswersWithin w s (go s)) : AnswersWithin w s (withRange len go s) := by
  obtain ⟨-, hr⟩ | ⟨-, hr⟩ := withRange_cases len go s
  · exact hr ▸ hgo
  · exact hr ▸ latchFault_within _ _ _ hpc hfault

theorem finishDraw_within (b : Blit) (hflag : w (.reg Reg.flag)) (hfb : ∀ p, w (.cell p)) (hdirty : w .dirty) :
    AnswersWithin w s (finishDraw b s) :=
  ⟨_, rfl, { WritesOnly.refl.setV (flagByte b.collision) hflag with fb := .inr hfb, dirty := .inr hdirty }⟩

/-- A block register write that starts at `V0` and has `x + 1` bytes writes no register above `V[x]`. -/
theorem writesOnly_writeRegs (x : Reg) (bs : List Byte) (hlen : bs.length = x.val + 1) (hreg : ∀ r ≤ x, w (.reg r)) :
    WritesOnly w s { s with v := writeRegs s.v 0 bs } :=
  { WritesOnly.refl with
    reg := fun r => by
      rw [State.getV, writeRegs_getElem]
      split
      next hr => exact .inr (hreg r (show r.val ≤ x.val by omega))
      next => exact .inl rfl }

end

/-! ## What each instruction writes -/

/-- The instructions that raise a fault after the fetch (60_exceptions.md R260). -/
def mayRaise : Instr → Bool
  | .call _ | .ret _ | .drw _ _ _ | .ldB _ | .ldMemVx _ | .ldVxMem _ | .skp _ | .sknp _ => true
  | _ => false

/-- The table of writers (10_state.md R36): the elements an instruction may write. `pc` is written by every instruction, because
it is advanced past the word. -/
def Writes (i : Instr) : Element → Prop
  | .reg r => destination i = some r ∨ (writesFlag i = true ∧ r = 15) ∨ ∃ x, i = .ldVxMem x ∧ r ≤ x
  | .index => (∃ nnn, i = .ldI nnn) ∨ (∃ x, i = .addI x) ∨ ∃ x, i = .ldF x
  | .pc => True
  | .depth | .entry _ => (∃ nnn, i = .call nnn) ∨ ∃ g, i = .ret g
  | .delay => ∃ x, i = .ldDtVx x
  | .sound => ∃ x, i = .ldStVx x
  | .key _ => False
  | .cell _ | .dirty => (∃ g, i = .cls g) ∨ ∃ x y n, i = .drw x y n
  | .byte _ => (∃ x, i = .ldB x) ∨ ∃ x, i = .ldMemVx x
  | .fault => mayRaise i = true
  | .draws => (∃ x kk, i = .rnd x kk) ∨ ∃ x, i = .ldVxK x
  | .diags => (∃ nnn, i = .sys nnn) ∨ ∃ w, i = .gap w

/-- The five flag writers of the ALU write their destination and `VF`. -/
theorem writeFlagged_writes {i : Instr} {x : Reg} (f b : Byte) (s : State) (hx : destination i = some x)
    (hflag : writesFlag i = true) : AnswersWithin (Writes i) s (writeFlagged x f b s) :=
  writeFlagged_within f b (.inl hx) (.inr (.inl ⟨hflag, rfl⟩))

/-- The four instructions that access a range of memory may latch a fault and else write what the access writes. -/
theorem withRange_writes {i : Instr} (len : Nat) (go : State → Result) (s : State) (hi : mayRaise i = true)
    (hgo : AnswersWithin (Writes i) s (go s)) : AnswersWithin (Writes i) s (withRange len go s) :=
  withRange_within len trivial hi hgo

/-- The two key skips may latch a fault and else write `pc` alone. -/
theorem keySkip_writes {i : Instr} (x : Reg) (c : Bool → Bool) (s : State) (hi : mayRaise i = true) :
    AnswersWithin (Writes i) s (withKey x (fun pressed s => skipIf (c pressed) s) s) :=
  withKey_within x trivial hi fun _ => skipIf_within _ trivial

theorem execDrw_writes (x y : Reg) (n : Nibble) (s : State) : AnswersWithin (Writes (.drw x y n)) s (execDrw x y n s) :=
  withRange_writes _ _ s rfl
    (finishDraw_within _ (.inr (.inl ⟨rfl, rfl⟩)) (fun _ => .inr ⟨x, y, n, rfl⟩) (.inr ⟨x, y, n, rfl⟩))

theorem execLdB_writes (x : Reg) (s : State) : AnswersWithin (Writes (.ldB x)) s (execLdB x s) :=
  withRange_writes _ _ s rfl ⟨_, rfl, { WritesOnly.refl with mem := .inr fun _ => .inl ⟨x, rfl⟩ }⟩

theorem execLdMemVx_writes (x : Reg) (s : State) : AnswersWithin (Writes (.ldMemVx x)) s (execLdMemVx x s) :=
  withRange_writes _ _ s rfl ⟨_, rfl, { WritesOnly.refl with mem := .inr fun _ => .inr ⟨x, rfl⟩ }⟩

theorem execLdVxMem_writes (x : Reg) (s : State) : AnswersWithin (Writes (.ldVxMem x)) s (execLdVxMem x s) :=
  withRange_writes _ _ s rfl
    ⟨_, rfl, writesOnly_writeRegs x _ (length_loadBytes ..) fun _ hr => .inr (.inr ⟨x, rfl, hr⟩)⟩

/-- Every instruction answers a next state and writes only what the table gives it. -/
theorem exec_writes (i : Instr) (s : State) : AnswersWithin (Writes i) s (exec i s) := by
  cases i with
  | cls => exact ⟨_, rfl, { WritesOnly.refl with fb := .inr fun _ => .inl ⟨_, rfl⟩, dirty := .inr (.inl ⟨_, rfl⟩) }⟩
  | sys => exact emitDiag_within _ (.inl ⟨_, rfl⟩)
  | gap => exact emitDiag_within _ (.inr ⟨_, rfl⟩)
  | jp | jpV0 => exact jumpTo_within _ trivial
  | seImm | sneImm | seReg | sneReg => exact skipIf_within _ trivial
  | ldImm | addImm | ldReg | orReg | andReg | xorReg | ldVxDt => exact writeReg_within _ (.inl rfl)
  | addReg | subReg | shr | subnReg | shl => exact writeFlagged_writes _ _ s rfl rfl
  | rnd => exact ⟨_, rfl, writesOnly_drawn _ (.inl rfl) (.inl ⟨_, _, rfl⟩)⟩
  | ldI => exact ⟨_, rfl, { WritesOnly.refl with index := .inr (.inl ⟨_, rfl⟩) }⟩
  | addI => exact ⟨_, rfl, { WritesOnly.refl with index := .inr (.inr (.inl ⟨_, rfl⟩)) }⟩
  | ldF => exact ⟨_, rfl, { WritesOnly.refl with index := .inr (.inr (.inr ⟨_, rfl⟩)) }⟩
  | ldDtVx => exact ⟨_, rfl, { WritesOnly.refl with delay := .inr ⟨_, rfl⟩ }⟩
  | ldStVx => exact ⟨_, rfl, { WritesOnly.refl with sound := .inr ⟨_, rfl⟩ }⟩
  | call => exact pushAndJump_within _ trivial (.inl ⟨_, rfl⟩) (fun _ => .inl ⟨_, rfl⟩) rfl
  | ret => exact popToPc_within trivial (.inr ⟨_, rfl⟩) rfl
  | skp => exact keySkip_writes _ id s rfl
  | sknp => exact keySkip_writes _ not s rfl
  | ldVxK => exact waitKeyWith_within _ (.inl rfl) trivial (.inr ⟨_, rfl⟩)
  | drw => exact execDrw_writes ..
  | ldB => exact execLdB_writes ..
  | ldMemVx => exact execLdMemVx_writes ..
  | ldVxMem => exact execLdVxMem_writes ..

theorem exec_writesOnly {i : Instr} {s t : State} (h : exec i s = .next t) : WritesOnly (Writes i) s t := by
  obtain ⟨u, hu, hw⟩ := exec_writes i s
  cases hu.symm.trans h
  exact hw

end Sys2Proof.Machine
end

section
/-! PROOF. The fault each step latches (60_exceptions.md R260, R261), and who writes each element of the state (10_state.md
R36). -/

namespace Sys2Proof.Machine

open Sys2Proof.Claims

/-! ## The fault a step latches -/

@[simp] theorem getV_advance (s : State) (r : Reg) : s.advance.getV r = s.getV r := rfl

section
variable {s t : State}

/-- The checked range of `last + 1` bytes decides the data fault. -/
theorem withRange_latches {last : Nat} {go : State → Result} (hf : s.fault = none)
    (h : withRange (last + 1) go s = .next t) (hgo : ∀ u, go s = .next u → u.fault = s.fault) :
    t.fault = if s.i.toNat + last > 0xFFF then
      some ⟨.dataAddressOutOfRange, s.pc - 2, max s.i.toNat 0x1000⟩ else none := by
  have hok : s.rangeOk (last + 1) = true ↔ ¬ s.i.toNat + last > 0xFFF := by rw [rangeOk_iff]; omega
  obtain ⟨hr, hgoes⟩ | ⟨hr, hlatch⟩ := withRange_cases (last + 1) go s
  · rw [if_neg (hok.1 hr), hgo t (hgoes.symm.trans h), hf]
  · cases hlatch.symm.trans h
    rw [if_pos (not_not.1 (mt hok.2 (by rw [hr]; decide)))]
    rfl

theorem keySkip_latches {x : Reg} {c : Bool → Bool} (hf : s.fault = none)
    (h : withKey x (fun pressed s => skipIf (c pressed) s) s = .next t) :
    t.fault = if (s.getV x).toNat > 15 then some ⟨.keyIndexOutOfRange, s.pc - 2, (s.getV x).toNat⟩ else none := by
  obtain ⟨k, hk, hr⟩ | ⟨hx, hr⟩ := withKey_cases x (fun pressed s => skipIf (c pressed) s) s
  · rw [skipIf_eq] at hr
    cases hr.symm.trans h
    have hle : ¬ (s.getV x).toNat > 15 := by rw [hk]; omega
    rw [if_neg hle]
    exact hf
  · cases hr.symm.trans h
    rw [if_pos hx]
    rfl

theorem pushAndJump_latches {target : Word} (hf : s.fault = none) (h : pushAndJump target s = .next t) :
    t.fault = if s.sp = 16 then some ⟨.stackOverflow, s.pc - 2, 16⟩ else none := by
  obtain ⟨j, hj, hr⟩ | ⟨hsp, hr⟩ := pushAndJump_cases target s
  · cases hr.symm.trans h
    have hne : s.sp ≠ 16 := fun e => by rw [e] at hj; exact absurd hj.symm (Nat.ne_of_lt j.isLt)
    rw [if_neg hne]
    exact hf
  · cases hr.symm.trans h
    rw [if_pos hsp]
    rfl

theorem popToPc_latches (hf : s.fault = none) (h : popToPc s = .next t) :
    t.fault = if s.sp = 0 then some ⟨.stackUnderflow, s.pc - 2, 0⟩ else none := by
  obtain ⟨j, hj, hr⟩ | ⟨hsp, hr⟩ := popToPc_cases s
  · cases hr.symm.trans h
    have hne : s.sp ≠ 0 := fun e => by rw [e] at hj; cases hj
    rw [if_neg hne]
    exact hf
  · cases hr.symm.trans h
    rw [if_pos hsp]
    rfl

theorem execDrw_latches {x y : Reg} {n : Nibble} (hf : s.fault = none) (h : execDrw x y n s = .next t) :
    t.fault = if n = 0 then none else if s.i.toNat + (n.toNat - 1) > 0xFFF then
      some ⟨.dataAddressOutOfRange, s.pc - 2, max s.i.toNat 0x1000⟩ else none := by
  split
  next hn =>
    subst hn
    rw [execDrw, withRange_ok _ _ _ rfl] at h
    cases h
    exact hf
  next hn =>
    have hlen : n.toNat = n.toNat - 1 + 1 := by bv_omega
    rw [execDrw, hlen] at h
    exact withRange_latches hf h fun u hu => by cases hu; rfl

/-- A step of a running core latches exactly the fault of the table, or none. -/
theorem step_latches_expectedFault (hf : s.fault = none) (h : step s = .next t) : t.fault = expectedFault s := by
  obtain ⟨hstuck, -⟩ | ⟨-, hpc, hr⟩ | ⟨⟨-, hpc⟩, hr⟩ := step_cases s
  · exact absurd hf hstuck
  · cases hr.symm.trans h
    rw [expectedFault, if_pos hpc]
    rfl
  · rw [hr] at h
    have hf' : s.advance.fault = none := hf
    have hpc' : s.advance.pc - 2 = s.pc := BitVec.add_sub_cancel ..
    rw [expectedFault, if_neg (Nat.not_lt.2 hpc)]
    generalize decode (Memory.fetchWord s.mem s.pc.toNat) = i at h
    cases i with
    | call => simpa [hpc'] using pushAndJump_latches hf' h
    | ret => simpa [hpc'] using popToPc_latches hf' h
    | skp => simpa [hpc'] using keySkip_latches (c := id) hf' h
    | sknp => simpa [hpc'] using keySkip_latches (c := not) hf' h
    | drw => simpa [hpc'] using execDrw_latches hf' h
    | ldB =>
      rw [exec, execLdB] at h
      simpa [hpc'] using withRange_latches hf' h fun u hu => by cases hu; rfl
    | ldMemVx =>
      rw [exec, execLdMemVx] at h
      simpa [hpc'] using withRange_latches hf' h fun u hu => by cases hu; rfl
    | ldVxMem =>
      rw [exec, execLdVxMem] at h
      simpa [hpc'] using withRange_latches hf' h fun u hu => by cases hu; rfl
    | _ => exact ((exec_writesOnly h).fault.resolve_right Bool.false_ne_true).trans hf

end

/-! ## What a step writes -/

/-- What a step may write when the word it would fetch is `i`: what `i` may write, and the fault latch, which the fetch check
writes whatever the word is. -/
def StepWrites (i : Instr) : Element → Prop
  | .fault => True
  | e => Writes i e

theorem step_writesOnly {s t : State} (h : step s = .next t) :
    WritesOnly (StepWrites (decode (Memory.fetchWord s.mem s.pc.toNat))) s t := by
  obtain ⟨-, hr⟩ | ⟨-, -, hr⟩ | ⟨-, hr⟩ := step_cases s
  · cases hr.symm.trans h
    exact .refl
  · cases hr.symm.trans h
    exact { WritesOnly.refl with fault := .inr trivial }
  · exact { exec_writesOnly (hr.symm.trans h) with pc := .inr trivial, fault := .inr trivial }

theorem or_eq_true_of_ne : ∀ d c : Bool, (d || c) ≠ d → (d || c) = true := by decide

theorem execDrw_dirty_changed {x y : Reg} {n : Nibble} {s t : State} (h : execDrw x y n s = .next t)
    (hne : t.dirty ≠ s.dirty) : t.dirty = true := by
  obtain ⟨-, hr⟩ | ⟨-, hr⟩ := withRange_cases n.toNat _ s
  · rw [execDrw, hr, finishDraw] at h
    cases h
    exact or_eq_true_of_ne _ _ hne
  · rw [execDrw, hr] at h
    cases h
    exact absurd rfl hne

/-- `CLS` and `DRW` only ever set `dirty`. -/
theorem exec_dirty_changed {i : Instr} {s t : State} (h : exec i s = .next t) (hne : t.dirty ≠ s.dirty) :
    t.dirty = true := by
  obtain ⟨g, rfl⟩ | ⟨x, y, n, rfl⟩ := (exec_writesOnly h).dirty.resolve_left hne
  · cases h
    rfl
  · exact execDrw_dirty_changed h hne

theorem step_dirty_changed {s t : State} (h : step s = .next t) (hne : t.dirty ≠ s.dirty) : t.dirty = true := by
  obtain ⟨-, hr⟩ | ⟨-, -, hr⟩ | ⟨-, hr⟩ := step_cases s
  · cases hr.symm.trans h
    exact absurd rfl hne
  · cases hr.symm.trans h
    exact absurd rfl hne
  · exact exec_dirty_changed (hr.symm.trans h) hne

/-- A step changes the fault latch only by latching the fault of the table. -/
theorem step_fault_changed {s t : State} (h : step s = .next t) (hne : t.fault ≠ s.fault) :
    s.fault = none ∧ expectedFault s ≠ none := by
  have hf : s.fault = none := by
    by_contra hstuck
    rw [step, fetch_stuck s hstuck] at h
    cases h
    exact hne rfl
  exact ⟨hf, by rwa [step_latches_expectedFault hf h, hf] at hne⟩

/-! ## What a debug write writes -/

/-- The elements the debug session may write (60_exceptions.md R281). -/
def PokeWrites (e : Element) : Prop :=
  (∃ r, e = .reg r) ∨ e = .index ∨ e = .pc ∨ e = .delay ∨ e = .sound ∨ ∃ a, e = .byte a

theorem poke_writesOnly (p : Poke) (s : State) : WritesOnly PokeWrites s (poke p s) := by
  cases p with
  | reg r b => exact WritesOnly.refl.setV b (by simp [PokeWrites])
  | index => exact { WritesOnly.refl with index := .inr (by simp [PokeWrites]) }
  | pc => exact { WritesOnly.refl with pc := .inr (by simp [PokeWrites]) }
  | delay => exact { WritesOnly.refl with delay := .inr (by simp [PokeWrites]) }
  | sound => exact { WritesOnly.refl with sound := .inr (by simp [PokeWrites]) }
  | mem => exact { WritesOnly.refl with mem := .inr fun a => by simp [PokeWrites] }

/-- Settles O54: a step writes what the table of writers gives its instruction, and latches a fault only as the table of faults
says; the other events write what their frames say. -/
theorem writersOfEachElement : Obligations.WritersOfEachElement := by
  refine ⟨fun s t h => ?_, changesOnly_tick, changesOnly_keySet, changesOnly_dirtyClear,
    fun p s => (poke_writesOnly p s).changesOnly⟩
  have hw := step_writesOnly h
  exact ⟨fun r => (hw.reg r).resolve_left, hw.index.resolve_left,
    fun hne => hne.elim hw.depth.resolve_left fun hstack => hw.stack.resolve_left hstack 0,
    hw.delay.resolve_left, hw.sound.resolve_left, hw.keys.resolve_right fun hall => hall 0,
    fun hne => hw.fb.resolve_left hne 0, fun hne => ⟨step_dirty_changed h hne, hw.dirty.resolve_left hne⟩,
    fun hne => hw.mem.resolve_left hne 0, step_fault_changed h⟩

end Sys2Proof.Machine
end

section
/-! PROOF. Who reads what: an instruction does the same to states that differ only in `ST`, `dirty`, the diagnostics (10_state.md
R26, R29; 40_execution_cycle.md R133) and registers it does not read (R21). -/

namespace Sys2Proof.Machine

open Sys2Proof.Claims

/-! ## States that look alike -/

/-- The elements an instruction may leave unread: the registers, `ST`, `dirty` and the diagnostics. -/
structure Unread where
  v : Vector Byte 16
  st : Byte
  dirty : Bool
  diags : List Diag

/-- Their values in a state. -/
def State.unread (s : State) : Unread := ⟨s.v, s.st, s.dirty, s.diags⟩

/-- The state with other values in these elements. -/
def State.withUnread (s : State) (q : Unread) : State :=
  { s with v := q.v, st := q.st, dirty := q.dirty, diags := q.diags }

/-- Equal values but in the elements `p`. -/
structure Unread.Near (p : Element → Prop) (a q : Unread) : Prop where
  reg : ∀ r : Reg, q.v[r.val] = a.v[r.val] ∨ p (.reg r)
  sound : q.st = a.st ∨ p .sound
  dirty : q.dirty = a.dirty ∨ p .dirty
  diags : q.diags = a.diags ∨ p .diags

/-- `u` is `s` with other values in some elements among `p` that an instruction may leave unread. -/
inductive Alike (p : Element → Prop) (s : State) : State → Prop where
  | intro (q : Unread) (hq : s.unread.Near p q) : Alike p s (s.withUnread q)

/-- Both outcomes are next states, and these look alike. -/
def AnswerAlike (p : Element → Prop) (r r' : Result) : Prop := ∃ t u, r = .next t ∧ r' = .next u ∧ Alike p t u

section
variable {p : Element → Prop} {s t u : State}

theorem Alike.changesOnly (h : Alike p s u) : changesOnly s u p := by
  obtain ⟨q, hq⟩ := h
  intro e he
  cases e with
  | reg r => exact (hq.reg r).resolve_right he
  | sound => exact hq.sound.resolve_right he
  | dirty => exact hq.dirty.resolve_right he
  | diags => exact hq.diags.resolve_right he
  | _ => rfl

theorem Alike.getV_eq (h : Alike p s u) {r : Reg} (hr : ¬ p (.reg r)) : u.getV r = s.getV r := h.changesOnly (.reg r) hr

theorem AnswerAlike.exists_next {r r' : Result} (h : AnswerAlike p r r') (hr : r = .next t) :
    ∃ u, r' = .next u ∧ changesOnly t u p := by
  obtain ⟨t', u, ht, hu, halike⟩ := h
  cases ht.symm.trans hr
  exact ⟨u, hu, halike.changesOnly⟩

/-! ## Operations on states that look alike -/

theorem Unread.Near.setV {a q : Unread} (x : Reg) (b : Byte) (hq : a.Near p q) :
    Unread.Near p { a with v := a.v.set x.val b } { q with v := q.v.set x.val b } :=
  { hq with
    reg := fun r => by
      rw [Vector.getElem_set, Vector.getElem_set]
      split
      · exact .inl rfl
      · exact hq.reg r }

theorem Alike.setV (x : Reg) (b : Byte) (h : Alike p s u) : Alike p (s.setV x b) (u.setV x b) := by
  obtain ⟨q, hq⟩ := h
  exact ⟨{ q with v := _ }, hq.setV x b⟩

theorem Alike.regsUpTo_eq (h : Alike p s u) {x : Reg} (hx : ∀ r ≤ x, ¬ p (.reg r)) : u.regsUpTo x = s.regsUpTo x := by
  refine List.ext_getElem (by simp) fun k hk _ => ?_
  have hk : k < x.val + 1 := by simpa using hk
  have hget : u.v[k] = s.v[k] := h.getV_eq (hx ⟨k, by omega⟩ (Nat.le_of_lt_succ hk))
  simpa [State.regsUpTo] using hget

theorem writeReg_alike (x : Reg) {b b' : Byte} (hb : b' = b) (h : Alike p s u) :
    AnswerAlike p (writeReg x b s) (writeReg x b' u) := hb ▸ ⟨_, _, rfl, rfl, h.setV x b'⟩

theorem writeFlagged_alike (x : Reg) {f f' b b' : Byte} (hf : f' = f) (hb : b' = b) (h : Alike p s u) :
    AnswerAlike p (writeFlagged x f b s) (writeFlagged x f' b' u) :=
  hf ▸ hb ▸ ⟨_, _, rfl, rfl, (h.setV _ f').setV x b'⟩

/-- A register write of an instruction that uses up a draw. -/
theorem writeReg_drawn_alike (x : Reg) (b : Byte) (h : Alike p s u) :
    AnswerAlike p (writeReg x b { s with draws := s.draws + 1 }) (writeReg x b { u with draws := u.draws + 1 }) := by
  obtain ⟨q, hq⟩ := h
  exact ⟨_, _, rfl, rfl, { q with v := _ }, hq.setV x b⟩

theorem emitDiag_alike (w : Word) (h : Alike p s u) : AnswerAlike p (emitDiag w s) (emitDiag w u) := by
  obtain ⟨q, hq⟩ := h
  exact ⟨_, _, rfl, rfl, { q with diags := _ }, { hq with diags := hq.diags.imp_left (congrArg (· ++ _)) }⟩

theorem jumpTo_alike {a a' : Word} (ha : a' = a) (h : Alike p s u) : AnswerAlike p (jumpTo a s) (jumpTo a' u) := by
  obtain ⟨q, hq⟩ := h
  exact ha ▸ ⟨_, _, rfl, rfl, q, hq⟩

theorem skipIf_alike {c c' : Bool} (hc : c' = c) (h : Alike p s u) : AnswerAlike p (skipIf c s) (skipIf c' u) := by
  have hpc : u.pc = s.pc := by cases h; rfl
  rw [skipIf_eq, skipIf_eq]
  exact jumpTo_alike (by rw [hc, hpc]) h

theorem raise_alike (f : Fault) (n : Nat) (h : Alike p s u) : AnswerAlike p (raise f n s) (raise f n u) := by
  obtain ⟨q, hq⟩ := h
  exact ⟨_, _, rfl, rfl, q, hq⟩

theorem pushAndJump_alike (target : Word) (h : Alike p s u) :
    AnswerAlike p (pushAndJump target s) (pushAndJump target u) := by
  obtain ⟨q, hq⟩ := h
  by_cases hsp : s.sp.val < 16
  · exact ⟨_, _, dif_pos hsp, dif_pos hsp, q, hq⟩
  · exact ⟨_, _, dif_neg hsp, dif_neg hsp, q, hq⟩

theorem popToPc_alike (h : Alike p s u) : AnswerAlike p (popToPc s) (popToPc u) := by
  obtain ⟨q, hq⟩ := h
  by_cases hsp : s.sp.val = 0
  · exact ⟨_, _, dif_pos hsp, dif_pos hsp, q, hq⟩
  · exact ⟨_, _, dif_neg hsp, dif_neg hsp, q, hq⟩

theorem withRange_alike (len : Nat) {go : State → Result} (h : Alike p s u) (hgo : AnswerAlike p (go s) (go u)) :
    AnswerAlike p (withRange len go s) (withRange len go u) := by
  have hok : u.rangeOk len = s.rangeOk len := by cases h; rfl
  have hbad : u.firstBad = s.firstBad := by cases h; rfl
  rw [withRange, withRange, hok, hbad]
  split
  · exact hgo
  · exact raise_alike _ _ h

theorem keySkip_alike {x : Reg} (c : Bool → Bool) (hx : u.getV x = s.getV x) (h : Alike p s u) :
    AnswerAlike p (withKey x (fun pressed s => skipIf (c pressed) s) s)
      (withKey x (fun pressed s => skipIf (c pressed) s) u) := by
  have hkeys : u.keys = s.keys := by cases h; rfl
  simp only [withKey, hx, hkeys]
  split
  · exact skipIf_alike rfl h
  · exact raise_alike _ _ h

theorem waitKeyWith_alike (draw : Nat) (x : Reg) (h : Alike p s u) :
    AnswerAlike p (waitKeyWith draw x s) (waitKeyWith draw x u) := by
  have hkeys : pressedKeys u.keys = pressedKeys s.keys := by cases h; rfl
  have haddr : u.instrAddr = s.instrAddr := by cases h; rfl
  rw [waitKeyWith, waitKeyWith, hkeys, haddr]
  cases pickKey draw (pressedKeys s.keys) with
  | some k => exact writeReg_drawn_alike x _ h
  | none => exact jumpTo_alike rfl h

theorem finishDraw_alike (b : Blit) (h : Alike p s u) : AnswerAlike p (finishDraw b s) (finishDraw b u) := by
  obtain ⟨q, hq⟩ := h
  exact ⟨_, _, rfl, rfl, { q with v := _, dirty := _ },
    { hq.setV Reg.flag (flagByte b.collision) with dirty := hq.dirty.imp_left (congrArg (· || _)) }⟩

theorem setIndex_alike {a a' : Word} (ha : a' = a) (h : Alike p s u) :
    AnswerAlike p (.next { s with i := a }) (.next { u with i := a' }) := by
  obtain ⟨q, hq⟩ := h
  exact ha ▸ ⟨_, _, rfl, rfl, q, hq⟩

theorem setDelay_alike {b b' : Byte} (hb : b' = b) (h : Alike p s u) :
    AnswerAlike p (.next { s with dt := b }) (.next { u with dt := b' }) := by
  obtain ⟨q, hq⟩ := h
  exact hb ▸ ⟨_, _, rfl, rfl, q, hq⟩

theorem setSound_alike {b b' : Byte} (hb : b' = b) (h : Alike p s u) :
    AnswerAlike p (.next { s with st := b }) (.next { u with st := b' }) := by
  obtain ⟨q, hq⟩ := h
  exact ⟨_, _, rfl, rfl, { q with st := b' }, { hq with sound := .inl hb }⟩

/-- A store of the whole checked range. -/
theorem storeRange_alike (len : Nat) (bytes : State → List Byte) (hbytes : bytes u = bytes s) (h : Alike p s u) :
    AnswerAlike p
      (withRange len (fun s => .next { s with mem := Memory.storeBytes s.mem s.i.toNat (bytes s) }) s)
      (withRange len (fun s => .next { s with mem := Memory.storeBytes s.mem s.i.toNat (bytes s) }) u) := by
  refine withRange_alike _ h ?_
  rw [hbytes]
  obtain ⟨q, hq⟩ := h
  exact ⟨_, _, rfl, rfl, q, hq⟩

theorem loadRegs_alike (bs : List Byte) (h : Alike p s u) :
    AnswerAlike p (.next { s with v := writeRegs s.v 0 bs }) (.next { u with v := writeRegs u.v 0 bs }) := by
  obtain ⟨q, hq⟩ := h
  refine ⟨_, _, rfl, rfl, { q with v := _ }, { hq with reg := fun r => ?_ }⟩
  rw [State.unread, writeRegs_getElem, writeRegs_getElem]
  split
  · exact .inl rfl
  · exact hq.reg r

theorem Alike.loadBytes_eq (n : Nat) (h : Alike p s u) :
    Memory.loadBytes u.mem u.i.toNat n = Memory.loadBytes s.mem s.i.toNat n := by
  cases h
  rfl

theorem execCls_alike (h : Alike p s u) : AnswerAlike p (execCls s) (execCls u) := by
  obtain ⟨q, hq⟩ := h
  exact ⟨_, _, rfl, rfl, { q with dirty := true }, { hq with dirty := .inl rfl }⟩

theorem execDrw_alike {x y : Reg} (n : Nibble) (hx : u.getV x = s.getV x) (hy : u.getV y = s.getV y)
    (h : Alike p s u) : AnswerAlike p (execDrw x y n s) (execDrw x y n u) := by
  refine withRange_alike _ h ?_
  have hfb : u.fb = s.fb := by cases h; rfl
  rw [hx, hy, hfb, h.loadBytes_eq]
  exact finishDraw_alike _ h

theorem execLdVxMem_alike (x : Reg) (h : Alike p s u) : AnswerAlike p (execLdVxMem x s) (execLdVxMem x u) := by
  refine withRange_alike _ h ?_
  rw [h.loadBytes_eq]
  exact loadRegs_alike _ h

theorem execRnd_alike (x : Reg) (kk : Byte) (h : Alike p s u) : AnswerAlike p (execRnd x kk s) (execRnd x kk u) := by
  have hdraws : u.draws = s.draws := by cases h; rfl
  rw [execRnd, execRnd, hdraws]
  exact writeReg_drawn_alike x _ h

theorem execLdVxK_alike (x : Reg) (h : Alike p s u) : AnswerAlike p (execLdVxK x s) (execLdVxK x u) := by
  have hdraws : u.draws = s.draws := by cases h; rfl
  rw [execLdVxK, execLdVxK, hdraws]
  exact waitKeyWith_alike _ x h

end

/-! ## What each instruction reads -/

/-- The registers whose values an instruction reads. -/
def Reads : Instr → Reg → Prop
  | .seImm x _, r | .sneImm x _, r | .addImm x _, r | .shr x _, r | .shl x _, r | .skp x, r | .sknp x, r => r = x
  | .ldDtVx x, r | .ldStVx x, r | .addI x, r | .ldF x, r | .ldB x, r => r = x
  | .ldReg _ y, r => r = y
  | .seReg x y _, r | .sneReg x y _, r | .drw x y _, r => r = x ∨ r = y
  | .orReg x y, r | .andReg x y, r | .xorReg x y, r | .addReg x y, r | .subReg x y, r | .subnReg x y, r => r = x ∨ r = y
  | .jpV0 _, r => r = 0
  | .ldMemVx x, r => r ≤ x
  | _, _ => False

/-- An instruction does the same to states that look alike and agree on the registers it reads. -/
theorem exec_alike {p : Element → Prop} {s u : State} (i : Instr) (hp : ∀ r, Reads i r → ¬ p (.reg r))
    (h : Alike p s u) : AnswerAlike p (exec i s) (exec i u) := by
  have hread : ∀ r, Reads i r → u.getV r = s.getV r := fun r hr => h.getV_eq (hp r hr)
  cases i with
  | cls => exact execCls_alike h
  | sys | gap => exact emitDiag_alike _ h
  | jp => exact jumpTo_alike rfl h
  | jpV0 => exact jumpTo_alike (by rw [hread 0 rfl]) h
  | call => exact pushAndJump_alike _ h
  | ret => exact popToPc_alike h
  | seImm | sneImm => exact skipIf_alike (by rw [hread _ rfl]) h
  | seReg | sneReg => exact skipIf_alike (by rw [hread _ (.inl rfl), hread _ (.inr rfl)]) h
  | skp => exact keySkip_alike id (hread _ rfl) h
  | sknp => exact keySkip_alike not (hread _ rfl) h
  | ldImm => exact writeReg_alike _ rfl h
  | addImm | ldReg => exact writeReg_alike _ (by rw [hread _ rfl]) h
  | orReg | andReg | xorReg => exact writeReg_alike _ (by rw [hread _ (.inl rfl), hread _ (.inr rfl)]) h
  | addReg | subReg | subnReg =>
    exact writeFlagged_alike _ (by rw [hread _ (.inl rfl), hread _ (.inr rfl)])
      (by rw [hread _ (.inl rfl), hread _ (.inr rfl)]) h
  | shr | shl => exact writeFlagged_alike _ (by rw [hread _ rfl]) (by rw [hread _ rfl]) h
  | rnd => exact execRnd_alike _ _ h
  | ldVxK => exact execLdVxK_alike _ h
  | ldVxDt => exact writeReg_alike _ (by cases h; rfl) h
  | ldDtVx => exact setDelay_alike (hread _ rfl) h
  | ldStVx => exact setSound_alike (hread _ rfl) h
  | ldI => exact setIndex_alike rfl h
  | ldF => exact setIndex_alike (by rw [hread _ rfl]) h
  | addI => exact setIndex_alike (by rw [hread _ rfl]; cases h; rfl) h
  | drw => exact execDrw_alike _ (hread _ (.inl rfl)) (hread _ (.inr rfl)) h
  | ldB x => exact storeRange_alike 3 (fun s => bcdDigits (s.getV x)) (by rw [hread x rfl]) h
  | ldMemVx x => exact storeRange_alike (x.val + 1) (·.regsUpTo x) (h.regsUpTo_eq hp) h
  | ldVxMem => exact execLdVxMem_alike _ h

end Sys2Proof.Machine
end

section
/-! PROOF. `VF` as an ordinary register (10_state.md R21), and the elements no step reads (R26, R29; 40_execution_cycle.md
R133). -/

namespace Sys2Proof.Machine

open Sys2Proof.Claims

/-! ## Steps of states that look alike -/

/-- A step does the same to states that differ in no register. -/
theorem step_alike {p : Element → Prop} {s u : State} (hp : ∀ r, ¬ p (.reg r)) (h : Alike p s u) :
    AnswerAlike p (step s) (step u) := by
  have hfetch : fetch u = fetch s := by cases h; rfl
  rw [step, step, hfetch]
  cases fetch s with
  | stuck => exact ⟨_, _, rfl, rfl, h⟩
  | outOfRange =>
    obtain ⟨q, hq⟩ := h
    exact ⟨_, _, rfl, rfl, q, hq⟩
  | word w =>
    obtain ⟨q, hq⟩ := h
    exact exec_alike _ (fun r _ => hp r) ⟨q, hq⟩

theorem alike_sound (s : State) (b : Byte) : Alike (· = .sound) s { s with st := b } :=
  ⟨{ s.unread with st := b }, fun _ => .inl rfl, .inr rfl, .inl rfl, .inl rfl⟩

theorem alike_dirty (s : State) (d : Bool) : Alike (· = .dirty) s { s with dirty := d } :=
  ⟨{ s.unread with dirty := d }, fun _ => .inl rfl, .inl rfl, .inr rfl, .inl rfl⟩

theorem alike_diags (s : State) (l : List Diag) : Alike (· = .diags) s { s with diags := l } :=
  ⟨{ s.unread with diags := l }, fun _ => .inl rfl, .inl rfl, .inl rfl, .inr rfl⟩

/-- Settles O55: `ST`, `dirty` and the diagnostics are among the elements that every step leaves unread. -/
theorem soundDirtyAndDiagnosticsAreUnread : Obligations.SoundDirtyAndDiagnosticsAreUnread := fun s _ b d l h =>
  ⟨(step_alike (by simp) (alike_sound s b)).exists_next h, (step_alike (by simp) (alike_dirty s d)).exists_next h,
    (step_alike (by simp) (alike_diags s l)).exists_next h⟩

/-! ## The flag register -/

/-- An instruction that changes `VF` writes it as a side effect or as its destination: `LD Vx, [I]` reaches it only with
`x = 15`. -/
theorem exec_flag_changed {i : Instr} {s t : State} (h : exec i s = .next t) (hne : t.getV 15 ≠ s.getV 15) :
    writesFlag i = true ∨ destination i = some 15 := by
  obtain hdest | ⟨hflag, -⟩ | ⟨x, rfl, hx⟩ := ((exec_writesOnly h).reg 15).resolve_left hne
  · exact .inr hdest
  · exact .inl hflag
  · exact .inr (congrArg some (Fin.last_le_iff.1 hx))

/-- An instruction reads `VF` only where a field names it. -/
theorem namesFlag_of_reads {i : Instr} (h : Reads i 15) : namesFlag i = true := by
  cases i with
  | seImm | sneImm | addImm | skp | sknp | ldDtVx | ldStVx | addI | ldF | ldB => cases h; rfl
  | shr | shl | ldReg => cases h; simp [namesFlag]
  | seReg | sneReg | drw | orReg | andReg | xorReg | addReg | subReg | subnReg => obtain rfl | rfl := h <;> simp [namesFlag]
  | ldMemVx => exact beq_iff_eq.2 (Fin.last_le_iff.1 h)
  | jpV0 => exact absurd (show (15 : Reg) = 0 from h) (by decide)
  | _ => exact h.elim

theorem alike_setV_flag (s : State) (b : Byte) : Alike (· = .reg 15) s (s.setV 15 b) := by
  refine ⟨{ s.unread with v := s.v.set 15 b }, fun r => ?_, .inl rfl, .inl rfl, .inl rfl⟩
  rw [Vector.getElem_set]
  split
  next h => exact .inr (congrArg _ (Fin.ext h.symm))
  next => exact .inl rfl

theorem toNat_sum8 (a b : Byte) : (sum8 a b).toNat = (a.toNat + b.toNat) % 256 := BitVec.toNat_ofNat ..

theorem toNat_diff8 (a b : Byte) : (diff8 a b).toNat = (a.toNat + 256 - b.toNat) % 256 := BitVec.toNat_ofNat ..

theorem toNat_shl8 (a : Byte) : (shl8 a).toNat = 2 * a.toNat % 256 := BitVec.toNat_ofNat ..

theorem toNat_shr8 (a : Byte) : (shr8 a).toNat = a.toNat / 2 :=
  (BitVec.toNat_ofNat ..).trans (Nat.mod_eq_of_lt (by omega))

/-- Settles O32: the table of writers for the first clause, the registers read for the second, and for the third that the result
is written last, so that it stays in the destination whatever register that is (42_alu.md R170). -/
theorem flagRegisterIsOrdinary : Obligations.FlagRegisterIsOrdinary := by
  refine ⟨fun i s t => exec_flag_changed, fun i s t b hi h => ?_, fun y s => ?_⟩
  · have hp : ∀ r, Reads i r → Element.reg r ≠ .reg 15 := by
      rintro r hr ⟨⟩
      exact absurd (namesFlag_of_reads hr) (by simp [hi])
    exact (exec_alike i hp (alike_setV_flag s b)).exists_next h
  · refine ⟨_, _, _, _, _, rfl, ?_, rfl, ?_, rfl, ?_, rfl, ?_, rfl, ?_⟩ <;> rw [getV_setV_same]
    · exact toNat_sum8 ..
    · exact toNat_diff8 ..
    · exact toNat_diff8 ..
    · exact toNat_shr8 _
    · exact toNat_shl8 _

end Sys2Proof.Machine
end

section
/-! PROOF. A register dump: what it answers (43_index_memory.md R205), what its range reads as, and its effect on the next fetch
(20_memory.md R72). -/

namespace Sys2Proof.Machine

/-- A dump whose range lies inside memory stores `V[0]`..`V[x]` from `I` and changes nothing else. -/
theorem execLdMemVx_ok (x : Reg) (s : State) (h : s.i.toNat + x.val ≤ 0xFFF) :
    execLdMemVx x s = .next { s with mem := Memory.storeBytes s.mem s.i.toNat (s.regsUpTo x) } :=
  withRange_ok _ _ s ((rangeOk_iff s (x.val + 1)).2 (.inr h))

/-- The `j`-th byte of a dump reads back as the register `j`. -/
theorem read_storeBytes_regsUpTo (s : State) {x j : Reg} (m : Memory) (a : Nat) (h : j ≤ x) :
    Memory.read (Memory.storeBytes m a (s.regsUpTo x)) (a + j.val) = s.getV j := by
  have hj : j.val ≤ x.val := h
  rw [read_storeBytes, length_regsUpTo, if_pos (by omega), Nat.add_sub_cancel_left, regsUpTo_getD s x j h]

/-- A word fetched from inside a dump is the pair of two neighbouring registers. -/
theorem fetchWord_storeBytes_regsUpTo (s : State) {x j k : Reg} (m : Memory) (a : Nat) (hjk : k.val = j.val + 1)
    (hk : k ≤ x) :
    Memory.fetchWord (Memory.storeBytes m a (s.regsUpTo x)) (a + j.val) = Word.ofBytes (s.getV j) (s.getV k) := by
  have hj : j ≤ x := (Fin.le_def.2 (by omega) : j ≤ k).trans hk
  rw [Memory.fetchWord, Nat.add_assoc, ← hjk, read_storeBytes_regsUpTo s m a hj, read_storeBytes_regsUpTo s m a hk]

theorem ofBytes_eq_ofNat (hi lo : Byte) : Word.ofBytes hi lo = BitVec.ofNat 16 (hi.toNat * 256 + lo.toNat) := by
  rw [Nat.mul_comm, ← toNat_ofBytes, BitVec.ofNat_toNat, BitVec.setWidth_eq]

/-- Inside memory the advance past the instruction does not wrap. -/
theorem advance_pc_toNat {s : State} (h : s.fetches) : s.advance.pc.toNat = s.pc.toNat + 2 := by
  obtain ⟨-, hpc⟩ := h
  show (s.pc + 2).toNat = _
  bv_omega

/-- A step that fetches runs the instruction of its word. -/
theorem step_of_fetches {s : State} (h : s.fetches) :
    step s = exec (decode (Memory.fetchWord s.mem s.pc.toNat)) s.advance := by
  rw [step, fetch_word s h]

/-- A step that runs a dump inside memory advances `pc` and stores `V[0]`..`V[x]` from `I`. -/
theorem step_ldMemVx {s : State} {x : Reg} (hs : s.fetches)
    (hi : decode (Memory.fetchWord s.mem s.pc.toNat) = .ldMemVx x) (h : s.i.toNat + x.val ≤ 0xFFF) :
    step s = .next { s.advance with mem := Memory.storeBytes s.mem s.i.toNat (s.regsUpTo x) } := by
  rw [step_of_fetches hs, hi]
  exact execLdMemVx_ok x s.advance h

/-- Settles O38: the dump is part of the state the next fetch reads, and the two bytes that fetch takes lie inside it. -/
theorem storeIsSeenByNextFetch : Obligations.StoreIsSeenByNextFetch := by
  intro s t x j k hs hi hrange hjk hk haddr hstep
  have hpc : s.advance.pc.toNat = s.i.toNat + j.val := (advance_pc_toNat hs).trans haddr.symm
  have hkx : k.val ≤ x.val := hk
  cases hstep.symm.trans (step_ldMemVx hs hi hrange)
  rw [fetch_word, hpc, fetchWord_storeBytes_regsUpTo s _ _ hjk hk, ofBytes_eq_ofNat]
  exact ⟨hs.1, show s.advance.pc.toNat ≤ 0xFFE by omega⟩

end Sys2Proof.Machine
end

section
/-! PROOF. Decoding and encoding are inverse (30_encoding.md R91 to R98, R107): the fields of a word put together from fields, the
words that are gaps or `SYS`, and from them which words these are, that decoding is total, and that the ignored bits change
nothing. -/

namespace Sys2Proof

open Sys2Proof.Claims Sys2Proof.Machine

/-! ## The fields of a word put together from fields -/

@[simp] theorem opField_encodeNNN (o : Nibble) (nnn : BitVec 12) : opField (encodeNNN o nnn) = o := by
  apply BitVec.eq_of_toNat_eq
  rw [toNat_opField, toNat_encodeNNN]
  omega

@[simp] theorem nnnField_encodeNNN (o : Nibble) (nnn : BitVec 12) : nnnField (encodeNNN o nnn) = nnn := by
  apply BitVec.eq_of_toNat_eq
  rw [toNat_nnnField, toNat_encodeNNN]
  omega

@[simp] theorem opField_encodeXKK (o : Nibble) (x : Reg) (kk : Byte) : opField (encodeXKK o x kk) = o :=
  opField_encodeNNN ..

@[simp] theorem xField_encodeXKK (o : Nibble) (x : Reg) (kk : Byte) : xField (encodeXKK o x kk) = x := by
  apply Fin.ext
  rw [val_xField, toNat_xBits, toNat_encodeXKK]
  omega

@[simp] theorem kkField_encodeXKK (o : Nibble) (x : Reg) (kk : Byte) : kkField (encodeXKK o x kk) = kk := by
  apply BitVec.eq_of_toNat_eq
  rw [toNat_kkField, toNat_encodeXKK]
  omega

@[simp] theorem opField_encodeXYN (o : Nibble) (x y : Reg) (n : Nibble) : opField (encodeXYN o x y n) = o :=
  opField_encodeNNN ..

@[simp] theorem xField_encodeXYN (o : Nibble) (x y : Reg) (n : Nibble) : xField (encodeXYN o x y n) = x :=
  xField_encodeXKK ..

@[simp] theorem yField_encodeXYN (o : Nibble) (x y : Reg) (n : Nibble) : yField (encodeXYN o x y n) = y := by
  apply Fin.ext
  rw [val_yField, toNat_yBits, toNat_encodeXYN]
  omega

@[simp] theorem nField_encodeXYN (o : Nibble) (x y : Reg) (n : Nibble) : nField (encodeXYN o x y n) = n := by
  apply BitVec.eq_of_toNat_eq
  rw [toNat_nField, toNat_encodeXYN]
  omega

@[simp] theorem opField_encodeZ (g : Nibble) (ss : Byte) : opField (encodeZ g ss) = 0 := opField_encodeNNN ..

@[simp] theorem xBits_encodeZ (g : Nibble) (ss : Byte) : xBits (encodeZ g ss) = g := by
  apply BitVec.eq_of_toNat_eq
  rw [toNat_xBits, toNat_encodeZ]
  omega

@[simp] theorem kkField_encodeZ (g : Nibble) (ss : Byte) : kkField (encodeZ g ss) = ss := by
  apply BitVec.eq_of_toNat_eq
  rw [toNat_kkField, toNat_encodeZ]
  omega

/-! ## A word put together from its own fields -/

theorem encodeNNN_fields (w : Word) : encodeNNN (opField w) (nnnField w) = w := by
  apply BitVec.eq_of_toNat_eq
  rw [toNat_encodeNNN, toNat_opField, toNat_nnnField]
  omega

theorem encodeXKK_fields (w : Word) : encodeXKK (opField w) (xField w) (kkField w) = w := by
  apply BitVec.eq_of_toNat_eq
  rw [toNat_encodeXKK, toNat_opField, val_xField, toNat_xBits, toNat_kkField]
  omega

theorem encodeXYN_fields (w : Word) : encodeXYN (opField w) (xField w) (yField w) (nField w) = w := by
  apply BitVec.eq_of_toNat_eq
  rw [toNat_encodeXYN, toNat_opField, val_xField, toNat_xBits, val_yField, toNat_yBits, toNat_nField]
  omega

theorem encodeNNN_of_op {w : Word} {o : Nibble} (hop : (opField w).toNat = o.toNat) :
    encodeNNN o (nnnField w) = w := by
  rw [← BitVec.eq_of_toNat_eq hop, encodeNNN_fields]

theorem encodeXKK_of_op {w : Word} {o : Nibble} (hop : (opField w).toNat = o.toNat) :
    encodeXKK o (xField w) (kkField w) = w := by
  rw [← BitVec.eq_of_toNat_eq hop, encodeXKK_fields]

theorem encodeXYN_of_op {w : Word} {o : Nibble} (hop : (opField w).toNat = o.toNat) :
    encodeXYN o (xField w) (yField w) (nField w) = w := by
  rw [← BitVec.eq_of_toNat_eq hop, encodeXYN_fields]

theorem encodeXKK_of_op_kk {w : Word} {o : Nibble} {kk : Byte} (hop : (opField w).toNat = o.toNat)
    (hkk : (kkField w).toNat = kk.toNat) : encodeXKK o (xField w) kk = w := by
  rw [← BitVec.eq_of_toNat_eq hkk, encodeXKK_of_op hop]

theorem encodeXYN_of_op_n {w : Word} {o n : Nibble} (hop : (opField w).toNat = o.toNat)
    (hn : (nField w).toNat = n.toNat) : encodeXYN o (xField w) (yField w) n = w := by
  rw [← BitVec.eq_of_toNat_eq hn, encodeXYN_of_op hop]

theorem encodeZ_of_op_kk {w : Word} {ss : Byte} (hop : (opField w).toNat = 0)
    (hkk : (kkField w).toNat = ss.toNat) : encodeZ (xBits w) ss = w := by
  apply BitVec.eq_of_toNat_eq
  rw [toNat_encodeZ, toNat_xBits, ← hkk, toNat_kkField]
  rw [toNat_opField] at hop
  omega

/-! ## Gap words and `SYS` words -/

theorem isSysAddr_nnnField (w : Word) : isSysAddr (nnnField w) = true ↔ (kkField w).toNat ∉ [0xE0, 0xEE] := by
  have hkk : (nnnField w).extractLsb' 0 8 = kkField w := by
    apply BitVec.eq_of_toNat_eq
    rw [BitVec.extractLsb'_toNat, toNat_nnnField, toNat_kkField]
    omega
  simp [isSysAddr, hkk, ← BitVec.toNat_inj]

/-- The gap words, by the fields that the decode tree examines (30_encoding.md R95 to R97, R100). -/
theorem isGapWord_iff (w : Word) : isGapWord w = true ↔
    ((opField w).toNat = 8 ∧ (nField w).toNat ∉ [0, 1, 2, 3, 4, 5, 6, 7, 0xE]) ∨
    ((opField w).toNat = 0xE ∧ (kkField w).toNat ∉ [0x9E, 0xA1]) ∨
    ((opField w).toNat = 0xF ∧ (kkField w).toNat ∉ [0x07, 0x0A, 0x15, 0x18, 0x1E, 0x29, 0x33, 0x55, 0x65]) := by
  have hn := (nField w).isLt
  rw [isGapWord, ← opField, ← nField, ← kkField]
  split
  next hop => simp [hop]; omega
  next hop => simp [hop]
  next hop => simp [hop]
  next => simp_all

theorem decode_of_isSysAddr {w : Word} (hop : (opField w).toNat = 0) (h : isSysAddr (nnnField w) = true) :
    decode w = .sys (nnnField w) := by
  have hkk := (isSysAddr_nnnField w).1 h
  simp only [decode, hop, decodeGroup0]
  split <;> simp_all

theorem decode_of_isGapWord {w : Word} (h : isGapWord w = true) : decode w = .gap w := by
  obtain ⟨hop, hfield⟩ | ⟨hop, hfield⟩ | ⟨hop, hfield⟩ := (isGapWord_iff w).1 h
  · simp only [decode, hop, decodeGroup8]
    split <;> simp_all
  · simp only [decode, hop, decodeGroupE]
    split <;> simp_all
  · simp only [decode, hop, decodeGroupF]
    split <;> simp_all

/-! ## Decoding and encoding are inverse -/

theorem decode_encode (i : Instr) (h : WellFormed i = true) : decode (encode i) = i := by
  cases i with
  | sys nnn =>
    have hw : nnnField (encodeNNN 0 nnn) = nnn := nnnField_encodeNNN ..
    exact (decode_of_isSysAddr (by simp [encode]) (hw.symm ▸ h)).trans (congrArg _ hw)
  | gap => exact decode_of_isGapWord h
  | cls | ret => simp [encode, decode, decodeGroup0]
  | jp | call | ldI | jpV0 => simp [encode, decode]
  | seImm | sneImm | ldImm | addImm | rnd => simp [encode, decode]
  | seReg | sneReg | drw => simp [encode, decode]
  | ldReg | orReg | andReg | xorReg | addReg | subReg | shr | subnReg | shl => simp [encode, decode, decodeGroup8]
  | skp | sknp => simp [encode, decode, decodeGroupE]
  | ldVxDt | ldVxK | ldDtVx | ldStVx | addI | ldF | ldB | ldMemVx | ldVxMem => simp [encode, decode, decodeGroupF]

/-- The instruction is one of the machine, and `w` is its word. -/
def IsInstrOf (w : Word) (i : Instr) : Prop := WellFormed i = true ∧ encode i = w

section
variable {w : Word}

theorem decodeGroup0_isInstrOf (hop : (opField w).toNat = 0) : IsInstrOf w (decodeGroup0 w) := by
  rw [decodeGroup0]
  split
  case h_3 => exact ⟨(isSysAddr_nnnField w).2 (by simp_all), encodeNNN_of_op hop⟩
  all_goals exact ⟨rfl, encodeZ_of_op_kk hop ‹_›⟩

theorem decodeGroup8_isInstrOf (hop : (opField w).toNat = 8) : IsInstrOf w (decodeGroup8 w) := by
  rw [decodeGroup8]
  split
  case h_10 => exact ⟨(isGapWord_iff w).2 (.inl ⟨hop, by simp_all⟩), rfl⟩
  all_goals exact ⟨rfl, encodeXYN_of_op_n hop ‹_›⟩

theorem decodeGroupE_isInstrOf (hop : (opField w).toNat = 0xE) : IsInstrOf w (decodeGroupE w) := by
  rw [decodeGroupE]
  split
  case h_3 => exact ⟨(isGapWord_iff w).2 (.inr (.inl ⟨hop, by simp_all⟩)), rfl⟩
  all_goals exact ⟨rfl, encodeXKK_of_op_kk hop ‹_›⟩

theorem decodeGroupF_isInstrOf (hop : (opField w).toNat = 0xF) : IsInstrOf w (decodeGroupF w) := by
  rw [decodeGroupF]
  split
  case h_10 => exact ⟨(isGapWord_iff w).2 (.inr (.inr ⟨hop, by simp_all⟩)), rfl⟩
  all_goals exact ⟨rfl, encodeXKK_of_op_kk hop ‹_›⟩

end

theorem decode_isInstrOf (w : Word) : IsInstrOf w (decode w) := by
  have hlt := (opField w).isLt
  rw [decode]
  split
  case h_1 hop => exact decodeGroup0_isInstrOf hop
  case h_9 hop => exact decodeGroup8_isInstrOf hop
  case h_15 hop => exact decodeGroupE_isInstrOf hop
  case h_16 => exact decodeGroupF_isInstrOf (by simp only [imp_false] at *; omega)
  case h_2 hop | h_3 hop | h_11 hop | h_12 hop => exact ⟨rfl, encodeNNN_of_op hop⟩
  case h_4 hop | h_5 hop | h_7 hop | h_8 hop | h_13 hop => exact ⟨rfl, encodeXKK_of_op hop⟩
  case h_6 hop | h_10 hop | h_14 hop => exact ⟨rfl, encodeXYN_of_op hop⟩

theorem wellFormed_decode (w : Word) : WellFormed (decode w) = true := (decode_isInstrOf w).1

theorem encode_decode (w : Word) : encode (decode w) = w := (decode_isInstrOf w).2

/-! ## Which words are gaps and which are `SYS` -/

theorem decode_eq_gap_iff (w : Word) : decode w = .gap w ↔ isGapWord w = true := by
  refine ⟨fun h => ?_, decode_of_isGapWord⟩
  have hwf := wellFormed_decode w
  rwa [h] at hwf

theorem exists_decode_eq_sys_iff (w : Word) :
    (∃ nnn, decode w = .sys nnn) ↔ (opField w).toNat = 0 ∧ isSysAddr (nnnField w) = true := by
  refine ⟨fun ⟨nnn, h⟩ => ?_, fun ⟨hop, h⟩ => ⟨_, decode_of_isSysAddr hop h⟩⟩
  have hwf := wellFormed_decode w
  rw [h] at hwf
  rw [← encode_decode w, h, encode, opField_encodeNNN, nnnField_encodeNNN]
  exact ⟨rfl, hwf⟩

/-- Settles O5: a word decodes to a gap, or to `SYS`, exactly when it is a gap word, or a `SYS` word, by its fields. -/
theorem gapWordsAreExactlyThese : Obligations.GapWordsAreExactlyThese := by
  intro w
  constructor
  · rw [decode_eq_gap_iff, isGapWord_iff, toNat_opField, toNat_nField, toNat_kkField]
  · rw [exists_decode_eq_sys_iff, isSysAddr_nnnField, toNat_opField, toNat_kkField]

/-! ## Words written as numbers -/

theorem wordXKK_toNat (o : Nibble) (x : Reg) (kk : Byte) : wordXKK o.toNat x kk.toNat = encodeXKK o x kk := by
  rw [wordXKK, ← toNat_encodeXKK, BitVec.ofNat_toNat, BitVec.setWidth_eq]

theorem wordXYN_toNat (o : Nibble) (x y : Reg) (n : Nibble) : wordXYN o.toNat x y n.toNat = encodeXYN o x y n := by
  rw [wordXYN, ← toNat_encodeXYN, BitVec.ofNat_toNat, BitVec.setWidth_eq]

theorem wordXKK_regOfBits (g : Nibble) (ss : Byte) : wordXKK 0 (regOfBits g) ss.toNat = encodeZ g ss := by
  apply BitVec.eq_of_toNat_eq
  rw [wordXKK, toNat_encodeZ, BitVec.toNat_ofNat, val_regOfBits]
  omega

/-- In group F the low byte of no operation makes a gap word, whatever `x` is. -/
theorem decode_wordXKK_gap (x : Reg) (kk : Byte)
    (h : kk.toNat ∉ [0x07, 0x0A, 0x15, 0x18, 0x1E, 0x29, 0x33, 0x55, 0x65]) :
    decode (wordXKK 0xF x kk.toNat) = .gap (wordXKK 0xF x kk.toNat) := by
  rw [decode_eq_gap_iff, isGapWord_iff, show wordXKK 0xF x kk.toNat = encodeXKK 0xF x kk from wordXKK_toNat 0xF x kk,
    opField_encodeXKK, kkField_encodeXKK]
  exact .inr (.inr ⟨rfl, h⟩)

/-- Settles O4: two bytes are the word of their number, every word decodes to an instruction of the machine, and the low bytes of
the SUPER-CHIP words are not among those the tree names. -/
theorem decodingIsTotal : Obligations.DecodingIsTotal := by
  refine ⟨fun hi lo rest => ?_, wellFormed_decode, by decide, fun x => ⟨?_, ?_⟩⟩
  · rw [decodeBytes, ofBytes_eq_ofNat]
  · exact decode_wordXKK_gap x 0x30 (by decide)
  · exact decode_wordXKK_gap x 0x75 (by decide)

/-- Settles O6: the words are those of the four instructions with `g` in the ignored bits, and no meaning reads these. -/
theorem aliasesExecuteAsCanonical : Obligations.AliasesExecuteAsCanonical := by
  intro x y g s
  refine ⟨?_, rfl, ?_, rfl, ?_, rfl, ?_, rfl⟩
  · exact (congrArg decode (wordXKK_regOfBits g 0xE0)).trans (decode_encode (.cls g) rfl)
  · exact (congrArg decode (wordXKK_regOfBits g 0xEE)).trans (decode_encode (.ret g) rfl)
  · exact (congrArg decode (wordXYN_toNat 5 x y g)).trans (decode_encode (.seReg x y g) rfl)
  · exact (congrArg decode (wordXYN_toNat 9 x y g)).trans (decode_encode (.sneReg x y g) rfl)

end Sys2Proof
end

section
/-! PROOF. The decode tree and the opcode table (30_encoding.md R107): every row examines the high nibble, so that only the rows
of its group, and the catch-all, can match a word; among these the low nibble or the low byte decides, as in the tree. -/

namespace Sys2Proof

/-! ## The bits that a mask of the opcode table keeps -/

theorem and_opMask (w : Word) : w &&& 0xF000#16 = opField w ++ 0#12 := by
  have h := encodeNNN_mask (opField w) (nnnField w)
  rwa [encodeNNN_fields] at h

theorem and_kkMask (w : Word) : w &&& 0xF0FF#16 = opField w ++ (0#4 ++ kkField w) := by
  have h := encodeXKK_maskLow (opField w) (xField w) (kkField w)
  rwa [encodeXKK_fields] at h

theorem and_nMask (w : Word) : w &&& 0xF00F#16 = opField w ++ (0#4 ++ (0#4 ++ nField w)) := by
  have h := encodeXYN_maskLow (opField w) (xField w) (yField w) (nField w)
  rwa [encodeXYN_fields] at h

theorem and_opMask_iff (w v : Word) : w &&& 0xF000#16 = v ↔ 0x1000 * (opField w).toNat = v.toNat := by
  rw [and_opMask, ← BitVec.toNat_inj, toNat_join12]
  rfl

theorem and_kkMask_iff (w v : Word) : w &&& 0xF0FF#16 = v ↔
    (opField w).toNat = v.toNat / 0x1000 ∧ (kkField w).toNat = v.toNat % 0x1000 := by
  rw [and_kkMask, ← BitVec.toNat_inj, toNat_join12, toNat_join8, BitVec.toNat_zero]
  have hkk := (kkField w).isLt
  omega

theorem and_nMask_iff (w v : Word) : w &&& 0xF00F#16 = v ↔
    (opField w).toNat = v.toNat / 0x1000 ∧ (nField w).toNat = v.toNat % 0x1000 := by
  rw [and_nMask, ← BitVec.toNat_inj, toNat_join12, toNat_join8, toNat_join4, BitVec.toNat_zero]
  have hn := (nField w).isLt
  omega

/-! ## The rows that a word can match -/

/-- The word has the values of the bits that the row examines. -/
def OpcodeRow.fits (r : OpcodeRow) (w : Word) : Bool := w &&& r.mask == r.value

/-- The row is one that a word of group `o` can fit: its value has that high nibble, or it examines no bit. -/
def OpcodeRow.inGroup (r : OpcodeRow) (o : Nat) : Bool := r.mask == 0 || r.value.toNat / 0x1000 == o

/-- Row 36, `GAP`, which every word fits. -/
def catchAllRow : OpcodeRow := ⟨36, 0x0000, 0x0000⟩

/-- The number of the first of the rows that a word fits, 0 when it fits none. -/
def firstOf (rows : List OpcodeRow) (w : Word) : Nat := ((rows.find? (·.fits w)).map (·.number)).getD 0

theorem firstOf_cons (r : OpcodeRow) (rs : List OpcodeRow) (w : Word) :
    firstOf (r :: rs) w = if w &&& r.mask = r.value then r.number else firstOf rs w := by
  by_cases h : w &&& r.mask = r.value <;> simp [firstOf, OpcodeRow.fits, h]

theorem firstRow_eq_firstOf (w : Word) : firstRow w = firstOf opcodeTable w := by
  simp only [firstRow, firstOf, OpcodeRow.fits]
  cases opcodeTable.find? fun r => w &&& r.mask == r.value <;> rfl

/-- Every row but the catch-all examines the whole high nibble. -/
theorem opcodeTable_examines_op : ∀ r ∈ opcodeTable, r.mask = 0 ∨ opField r.mask = 0xF := by decide

theorem opField_and (w m : Word) : opField (w &&& m) = opField w &&& opField m := BitVec.extractLsb'_and

theorem inGroup_of_fits {r : OpcodeRow} {w : Word} (hr : r ∈ opcodeTable) (h : r.fits w = true) :
    r.inGroup (opField w).toNat = true := by
  rw [OpcodeRow.inGroup, ← beq_iff_eq.1 h, ← toNat_opField, opField_and]
  obtain hmask | hop := opcodeTable_examines_op r hr
  · simp [hmask]
  · rw [hop, show (0xF : Nibble) = BitVec.allOnes 4 from rfl, BitVec.and_allOnes]
    simp

/-- Rows of other groups can be left out, because a word fits none of them. -/
theorem firstOf_filter_inGroup (w : Word) :
    firstOf (opcodeTable.filter (·.inGroup (opField w).toNat)) w = firstOf opcodeTable w := by
  have hfind : (opcodeTable.find? fun r => r.inGroup (opField w).toNat && r.fits w) = opcodeTable.find? (·.fits w) := by
    refine List.find?_congr fun r hr => ?_
    cases h : r.fits w
    · simp
    · simp [inGroup_of_fits hr h]
  simp [firstOf, List.find?_filter, hfind]

/-- The row of a word is the first that it fits among the rows of its group. -/
theorem firstRow_of_group {w : Word} {o : Nat} (rows : List OpcodeRow) (hop : (opField w).toNat = o)
    (hrows : opcodeTable.filter (·.inGroup o) = rows) : firstRow w = firstOf rows w := by
  rw [← hrows, ← hop, firstOf_filter_inGroup, firstRow_eq_firstOf]

/-! ## The tree picks the first row -/

section
variable {w : Word}

/-- A group whose words are all of one instruction. -/
theorem firstRow_of_singleRow {o k : Nat} (hop : (opField w).toNat = o)
    (hrows : opcodeTable.filter (·.inGroup o) = [⟨k, 0xF000, BitVec.ofNat 16 (0x1000 * o)⟩, catchAllRow]) :
    firstRow w = k := by
  have hlt : o < 16 := hop ▸ (opField w).isLt
  have hfits : w &&& 0xF000#16 = BitVec.ofNat 16 (0x1000 * o) := by
    rw [and_opMask_iff, hop, BitVec.toNat_ofNat]
    omega
  rw [firstRow_of_group _ hop hrows, firstOf_cons]
  exact if_pos hfits

theorem rowNumber_decodeGroup0 (hop : (opField w).toNat = 0) : (decodeGroup0 w).rowNumber = firstRow w := by
  rw [firstRow_of_group (opcodeRowsA.take 3 ++ [catchAllRow]) hop rfl, decodeGroup0]
  split <;> simp_all [opcodeRowsA, catchAllRow, and_kkMask_iff, and_opMask_iff, firstOf_cons, Instr.rowNumber]

theorem rowNumber_decodeGroup8 (hop : (opField w).toNat = 8) : (decodeGroup8 w).rowNumber = firstRow w := by
  rw [firstRow_of_group (opcodeRowsB.take 9 ++ [catchAllRow]) hop rfl, decodeGroup8]
  split <;> simp_all [opcodeRowsB, catchAllRow, and_nMask_iff, firstOf_cons, Instr.rowNumber]

theorem rowNumber_decodeGroupE (hop : (opField w).toNat = 0xE) : (decodeGroupE w).rowNumber = firstRow w := by
  rw [firstRow_of_group (opcodeRowsC.take 2 ++ [catchAllRow]) hop rfl, decodeGroupE]
  split <;> simp_all [opcodeRowsC, catchAllRow, and_kkMask_iff, firstOf_cons, Instr.rowNumber]

theorem rowNumber_decodeGroupF (hop : (opField w).toNat = 0xF) : (decodeGroupF w).rowNumber = firstRow w := by
  rw [firstRow_of_group (opcodeRowsC.drop 2) hop rfl, decodeGroupF]
  split <;> simp_all [opcodeRowsC, and_kkMask_iff, firstOf_cons, Instr.rowNumber]

end

/-- Settles O3: in a group of one instruction its row is the only one but the catch-all; in the four groups with a second level
the rows are tried in the order of the tree's arms. -/
theorem decodeFollowsOpcodeTable : Obligations.DecodeFollowsOpcodeTable := by
  intro w
  have hlt := (opField w).isLt
  rw [decode]
  split
  case h_1 hop => exact rowNumber_decodeGroup0 hop
  case h_9 hop => exact rowNumber_decodeGroup8 hop
  case h_15 hop => exact rowNumber_decodeGroupE hop
  case h_16 => exact rowNumber_decodeGroupF (by simp only [imp_false] at *; omega)
  case h_2 hop | h_3 hop | h_4 hop | h_5 hop | h_6 hop | h_7 hop | h_8 hop | h_10 hop | h_11 hop | h_12 hop | h_13 hop |
      h_14 hop => exact (firstRow_of_singleRow hop rfl).symm

end Sys2Proof
end

section
/-! PROOF. The step cycle (40_execution_cycle.md R130), and from its three beginnings that the core never stops by itself (R137),
that a faulted core is stuck (R138) and that faults are precise (R135). -/

namespace Sys2Proof.Machine

/-! ## The step cycle -/

theorem step_of_faulted {s : State} (h : s.fault ≠ none) : step s = .next s := by rw [step, fetch_stuck s h]

/-- The fetch check's fault leaves `pc` where it is. -/
theorem step_of_pc_outOfRange {s : State} (h : s.fault = none) (hpc : s.pc.toNat > 0xFFE) :
    step s = .next { s with fault := some { cause := .fetchOutOfRange, pcAt := s.pc, info := s.pc.toNat } } := by
  rw [step, fetch_outOfRange s h hpc]
  rfl

/-- Settles O8: the tests of the fetch, and the word of a fetch as the number of its two bytes. -/
theorem stepCycle : Obligations.StepCycle := by
  refine fun s => ⟨step_of_faulted, step_of_pc_outOfRange, fun hf hpc => ?_⟩
  rw [step_of_fetches ⟨hf, hpc⟩, Memory.fetchWord, ofBytes_eq_ofNat]
  rfl

/-- Settles O10: a stuck core and a failed fetch answer a next state, and so does every instruction. -/
theorem everyStepAnswersNext : Obligations.EveryStepAnswersNext := by
  intro s
  obtain ⟨-, hr⟩ | ⟨-, -, hr⟩ | ⟨-, hr⟩ := step_cases s
  · exact ⟨_, hr⟩
  · exact ⟨_, hr⟩
  · obtain ⟨t, ht, -⟩ := exec_effect (decode (Memory.fetchWord s.mem s.pc.toNat)) s.advance
    exact ⟨t, hr.trans ht⟩

/-! ## A faulted core -/

theorem poke_fault (p : Poke) (s : State) : (poke p s).fault = s.fault :=
  (poke_writesOnly p s).fault.resolve_right (by simp [PokeWrites])

/-- An event that changes the latch of a faulted core is a `Reset`, and it clears the latch. -/
theorem event_changes_latch {e : Event} {s t : State} (hs : s.fault ≠ none) (h : event e s = .next t)
    (hne : t.fault ≠ s.fault) : (∃ image, e = .reset image) ∧ t.fault = none := by
  cases e with
  | step =>
    cases (step_of_faulted hs).symm.trans h
    exact absurd rfl hne
  | tick | keySet | dirtyClear =>
    cases h
    exact absurd rfl hne
  | poke p =>
    cases h
    exact absurd (poke_fault p s) hne
  | reset image =>
    obtain ⟨-, rfl⟩ := resetWith_next h
    exact ⟨⟨image, rfl⟩, rfl⟩

/-- Settles O11: a step finds the latch set, and no event but `Reset` writes the latch of a faulted core. -/
theorem faultedCoreIsStuck : Obligations.FaultedCoreIsStuck := fun _ hs =>
  ⟨step_of_faulted hs, rfl, fun _ _ => rfl, rfl, fun _ _ => event_changes_latch hs⟩

/-! ## Faults are precise -/

/-- The outcome is a next state with the latch of `s`, or with a fault of the instruction at `pc - 2` latched and nothing else
done. -/
def RaisesPrecisely (s : State) (r : Result) : Prop :=
  ∃ t, r = .next t ∧ (t.fault = s.fault ∨ ∃ f info, t = latchFault f (s.pc - 2) info s)

theorem raisesPrecisely_latchFault (f : Fault) (n : Nat) (s : State) :
    RaisesPrecisely s (.next (latchFault f (s.pc - 2) n s)) := ⟨_, rfl, .inr ⟨f, n, rfl⟩⟩

theorem skipIf_raisesPrecisely (c : Bool) (s : State) : RaisesPrecisely s (skipIf c s) :=
  ⟨_, skipIf_eq c s, .inl rfl⟩

theorem pushAndJump_raisesPrecisely (target : Word) (s : State) : RaisesPrecisely s (pushAndJump target s) := by
  obtain ⟨j, -, hr⟩ | ⟨-, hr⟩ := pushAndJump_cases target s
  · exact ⟨_, hr, .inl rfl⟩
  · exact hr ▸ raisesPrecisely_latchFault ..

theorem popToPc_raisesPrecisely (s : State) : RaisesPrecisely s (popToPc s) := by
  obtain ⟨j, -, hr⟩ | ⟨-, hr⟩ := popToPc_cases s
  · exact ⟨_, hr, .inl rfl⟩
  · exact hr ▸ raisesPrecisely_latchFault ..

theorem withKey_raisesPrecisely (x : Reg) {go : Bool → State → Result} {s : State}
    (hgo : ∀ b, RaisesPrecisely s (go b s)) : RaisesPrecisely s (withKey x go s) := by
  obtain ⟨k, -, hr⟩ | ⟨-, hr⟩ := withKey_cases x go s
  · exact hr ▸ hgo _
  · exact hr ▸ raisesPrecisely_latchFault ..

theorem withRange_raisesPrecisely (len : Nat) {go : State → Result} {s : State} (hgo : RaisesPrecisely s (go s)) :
    RaisesPrecisely s (withRange len go s) := by
  obtain ⟨-, hr⟩ | ⟨-, hr⟩ := withRange_cases len go s
  · exact hr ▸ hgo
  · exact hr ▸ raisesPrecisely_latchFault ..

/-- An instruction either cannot raise, or raises before its first write (60_exceptions.md R266). -/
theorem exec_raisesPrecisely (i : Instr) (s : State) : RaisesPrecisely s (exec i s) := by
  cases i with
  | call => exact pushAndJump_raisesPrecisely ..
  | ret => exact popToPc_raisesPrecisely s
  | skp | sknp => exact withKey_raisesPrecisely _ fun _ => skipIf_raisesPrecisely ..
  | drw | ldB | ldMemVx | ldVxMem =>
    rw [exec]
    exact withRange_raisesPrecisely _ ⟨_, rfl, .inl rfl⟩
  | _ =>
    obtain ⟨t, ht, hw⟩ := exec_writes _ s
    exact ⟨t, ht, .inl (hw.fault.resolve_right Bool.false_ne_true)⟩

/-- Latching a fault at the fetched address undoes the advance. -/
theorem latchFault_advance (f : Fault) (n : Nat) (s : State) :
    latchFault f (s.advance.pc - 2) n s.advance =
      { s with fault := some { cause := f, pcAt := s.pc, info := n } } := by
  rw [show s.advance.pc - 2 = s.pc from BitVec.add_sub_cancel ..]
  rfl

/-- Settles O12: the fetch check raises before anything is written, and so does every instruction. -/
theorem faultsArePrecise : Obligations.FaultsArePrecise := by
  intro s t hf h hne
  obtain ⟨hfaulted, -⟩ | ⟨-, -, hr⟩ | ⟨-, hr⟩ := step_cases s
  · exact absurd hf hfaulted
  · cases hr.symm.trans h
    exact ⟨_, _, rfl⟩
  · obtain ⟨u, hu, hprecise⟩ := exec_raisesPrecisely (decode (Memory.fetchWord s.mem s.pc.toNat)) s.advance
    cases (hr.trans hu).symm.trans h
    obtain ⟨f, info, rfl⟩ := hprecise.resolve_left fun hkept => hne (hkept.trans hf)
    exact ⟨f, info, latchFault_advance f info s⟩

end Sys2Proof.Machine
end

section
/-! PROOF. Gap words and `SYS` (40_execution_cycle.md R133, R134), and a run through zeroed memory, whose words are `SYS 0`. -/

namespace Sys2Proof

open Sys2Proof.Claims Sys2Proof.Machine

/-! ## `SYS` words written as numbers -/

theorem wordNNN_toNat (o : Nibble) (nnn : BitVec 12) : wordNNN o.toNat nnn = encodeNNN o nnn := by
  rw [wordNNN, ← toNat_encodeNNN, BitVec.ofNat_toNat, BitVec.setWidth_eq]

/-- The word that `SYS nnn` reports is its own. -/
theorem setWidth_eq_wordNNN (nnn : BitVec 12) : nnn.setWidth 16 = wordNNN 0 nnn := by
  apply BitVec.eq_of_toNat_eq
  rw [wordNNN, BitVec.toNat_setWidth, BitVec.toNat_ofNat]
  omega

theorem isSysAddr_iff (nnn : BitVec 12) : isSysAddr nnn = true ↔ nnn.toNat % 0x100 ∉ [0xE0, 0xEE] := by
  have h := isSysAddr_nnnField (encodeNNN 0 nnn)
  rw [nnnField_encodeNNN, toNat_kkField, toNat_encodeNNN] at h
  simpa using h

theorem decode_wordNNN_sys {nnn : BitVec 12} (h : isSysAddr nnn = true) : decode (wordNNN 0 nnn) = .sys nnn :=
  (congrArg decode (wordNNN_toNat 0 nnn)).trans (decode_encode (.sys nnn) h)

/-! ## What a gap does -/

theorem emitDiag_emits (w : Word) (s : State) :
    ∃ t, emitDiag w s = .next t ∧ t.diags = s.diags ++ [{ pcAt := s.pc - 2, word := w }] ∧
      changesOnly s t (fun e => e = .diags) := by
  obtain ⟨t, ht, hw⟩ := emitDiag_within (w := fun e => e = .diags) (s := s) w rfl
  cases ht
  exact ⟨_, rfl, rfl, hw.changesOnly⟩

/-- Settles O51: both are one diagnostic, with the gap word and with `0nnn`. -/
theorem gapsOnlyEmitDiagnostic : Obligations.GapsOnlyEmitDiagnostic := by
  refine ⟨fun w s _ => emitDiag_emits w s, fun nnn s hcls hret => ⟨decode_wordNNN_sys ?_, ?_⟩⟩
  · exact (isSysAddr_iff nnn).2 (by simp [hcls, hret])
  · exact setWidth_eq_wordNNN nnn ▸ emitDiag_emits _ s

/-! ## Runs of steps -/

/-- A run of one step more. -/
theorem core_run_succ_last {k : Nat} {s t u : State} (hrun : core.run k s = .next t) (h : step t = .next u) :
    core.run (k + 1) s = .next u := by
  induction k generalizing s with
  | zero =>
    cases hrun
    exact core_run_succ 0 t u h
  | succ k ih =>
    obtain ⟨s', hs'⟩ := everyStepAnswersNext s
    rw [core_run_succ _ s s' hs'] at hrun ⊢
    exact ih hrun

/-! ## Zeroed memory -/

/-- Memory reads as zero from `pc` up. -/
def ZeroedFromPc (s : State) : Prop := ∀ a, s.pc.toNat ≤ a → a < 0x1000 → Memory.read s.mem a = 0

theorem fetchWord_of_zeroedFromPc {s : State} (hs : s.fetches) (hzero : ZeroedFromPc s) :
    Memory.fetchWord s.mem s.pc.toNat = 0 := by
  obtain ⟨-, hpc⟩ := hs
  rw [Memory.fetchWord, hzero _ (Nat.le_refl _) (by omega), hzero _ (Nat.le_succ _) (by omega)]
  rfl

/-- A step in zeroed memory runs `SYS 0`: it moves past the word and emits one diagnostic. -/
theorem step_of_zeroedFromPc {s : State} (hs : s.fetches) (hzero : ZeroedFromPc s) :
    ∃ t, step s = .next t ∧ t.pc.toNat = s.pc.toNat + 2 ∧ t.diags.length = s.diags.length + 1 ∧
      WritesOnly (fun e => e = .pc ∨ e = .diags) s t := by
  have hstep : step s = emitDiag 0 s.advance := by
    rw [step_of_fetches hs, fetchWord_of_zeroedFromPc hs hzero, show decode 0 = .sys 0 by decide]
    rfl
  have hw : WritesOnly (fun e => e = .pc ∨ e = .diags) s s := .refl
  exact ⟨_, hstep, advance_pc_toNat hs, List.length_append,
    { hw with pc := .inr (.inl rfl), diags := .inr (.inr rfl) }⟩

/-- `k` steps through zeroed memory, by induction on `k`: each moves `pc` by 2 and emits one diagnostic. -/
theorem run_of_zeroedFromPc {k : Nat} {s : State} (hf : s.fault = none) (hpc : s.pc.toNat + 2 * k ≤ 0x1000)
    (hzero : ZeroedFromPc s) :
    ∃ t, core.run k s = .next t ∧ t.pc.toNat = s.pc.toNat + 2 * k ∧ t.diags.length = s.diags.length + k ∧
      changesOnly s t (fun e => e = .pc ∨ e = .diags) := by
  induction k generalizing s with
  | zero => exact ⟨s, rfl, rfl, rfl, changesOnly_refl s _⟩
  | succ k ih =>
    have hs : s.fetches := ⟨hf, by omega⟩
    obtain ⟨t, hstep, htpc, htdiags, hw⟩ := step_of_zeroedFromPc hs hzero
    have htf : t.fault = none := (hw.fault.resolve_right (by simp)).trans hf
    have htzero : ZeroedFromPc t := fun a ha => by
      rw [hw.mem.resolve_right fun hall => by simpa using hall 0]
      exact hzero a (by omega)
    obtain ⟨u, hrun, hupc, hudiags, hframe⟩ := ih htf (by omega) htzero
    exact ⟨u, (core_run_succ k s t hstep).trans hrun, by omega, by omega, changesOnly_trans hw.changesOnly hframe⟩

/-- Settles O52: the run through zeroed memory, then the fetch check, which fails past `0xFFE`. -/
theorem zeroedMemoryRunsToFetchFault : Obligations.ZeroedMemoryRunsToFetchFault := by
  intro s k e hf he hpc hzero
  have hend : e.toNat = 0x1000 ∨ e.toNat = 0xFFF := he.imp (congrArg BitVec.toNat) (congrArg BitVec.toNat)
  obtain ⟨t, hrun, htpc, hdiags, hframe⟩ := run_of_zeroedFromPc (k := k) hf (by omega) hzero
  obtain rfl : t.pc = e := BitVec.eq_of_toNat_eq (htpc.trans hpc)
  have htf : t.fault = none := (hframe .fault (by simp)).trans hf
  exact ⟨t, _, hrun, rfl, hdiags, hframe, core_run_succ_last hrun (step_of_pc_outOfRange htf (by omega)), rfl⟩

end Sys2Proof
end

section
/-! PROOF. What reads a draw (40_execution_cycle.md R136): every instruction but `RND` and `LD Vx, K` does the same whatever the
count of draws is. -/

namespace Sys2Proof.Machine

/-- Both outcomes are next states, and the second is the first with `d` as its count of draws. -/
def AnswersWithDraws (d : Nat) (r r' : Result) : Prop := ∃ t, r = .next t ∧ r' = .next { t with draws := d }

section
variable (d : Nat) (s : State)

theorem skipIf_withDraws (c : Bool) : AnswersWithDraws d (skipIf c s) (skipIf c { s with draws := d }) := by
  rw [skipIf_eq, skipIf_eq]
  exact ⟨_, rfl, rfl⟩

theorem pushAndJump_withDraws (target : Word) :
    AnswersWithDraws d (pushAndJump target s) (pushAndJump target { s with draws := d }) := by
  by_cases hsp : s.sp.val < 16
  · exact ⟨_, dif_pos hsp, dif_pos hsp⟩
  · exact ⟨_, dif_neg hsp, dif_neg hsp⟩

theorem popToPc_withDraws : AnswersWithDraws d (popToPc s) (popToPc { s with draws := d }) := by
  by_cases hsp : s.sp.val = 0
  · exact ⟨_, dif_pos hsp, dif_pos hsp⟩
  · exact ⟨_, dif_neg hsp, dif_neg hsp⟩

theorem keySkip_withDraws (x : Reg) (c : Bool → Bool) :
    AnswersWithDraws d (withKey x (fun pressed s => skipIf (c pressed) s) s)
      (withKey x (fun pressed s => skipIf (c pressed) s) { s with draws := d }) := by
  by_cases hx : (s.getV x).toNat < 16
  · obtain ⟨t, ht, hu⟩ := skipIf_withDraws d s (c s.keys[(s.getV x).toNat])
    exact ⟨t, (dif_pos hx).trans ht, (dif_pos hx).trans hu⟩
  · exact ⟨_, dif_neg hx, dif_neg hx⟩

theorem withRange_withDraws (len : Nat) {go : State → Result} (hgo : AnswersWithDraws d (go s) (go { s with draws := d })) :
    AnswersWithDraws d (withRange len go s) (withRange len go { s with draws := d }) := by
  cases hok : s.rangeOk len
  · exact ⟨_, withRange_fault _ _ _ hok, withRange_fault _ _ _ hok⟩
  · rw [withRange_ok _ _ s hok, withRange_ok _ _ { s with draws := d } hok]
    exact hgo

/-- Every instruction but the two answers the same for every count of draws, with that count kept. -/
theorem exec_withDraws (i : Instr) (hrnd : ∀ x kk, i ≠ .rnd x kk) (hwait : ∀ x, i ≠ .ldVxK x) :
    AnswersWithDraws d (exec i s) (exec i { s with draws := d }) := by
  cases i with
  | rnd x kk => exact absurd rfl (hrnd x kk)
  | ldVxK x => exact absurd rfl (hwait x)
  | seImm | sneImm | seReg | sneReg => exact skipIf_withDraws ..
  | call => exact pushAndJump_withDraws ..
  | ret => exact popToPc_withDraws ..
  | skp x => exact keySkip_withDraws d s x id
  | sknp x => exact keySkip_withDraws d s x not
  | drw | ldB | ldMemVx | ldVxMem =>
    rw [exec, exec]
    exact withRange_withDraws d s _ ⟨_, rfl, rfl⟩
  | _ => exact ⟨_, rfl, rfl⟩

end

/-- Settles O56: the table of writers gives the count of draws to the two instructions alone, and no other instruction reads it. -/
theorem onlyRandomAndWaitReadDraws : Obligations.OnlyRandomAndWaitReadDraws := by
  intro i s t d hrnd hwait h
  constructor
  · refine (exec_writesOnly h).draws.resolve_right ?_
    rintro (⟨x, kk, hi⟩ | ⟨x, hi⟩)
    · exact hrnd x kk hi
    · exact hwait x hi
  · obtain ⟨u, hu, hd⟩ := exec_withDraws d s i hrnd hwait
    cases hu.symm.trans h
    exact hd

end Sys2Proof.Machine
end

section
/-! PROOF. Control transfer (41_control_flow.md): what a push and a pop answer at each depth, that a return undoes the call it
belongs to, where the jumps go, and when the skips skip. -/

namespace Sys2Proof.Machine

open Sys2Proof.Claims

/-- A word that is the word of a well-formed instruction decodes to it. -/
theorem decode_of_eq_encode {w : Word} {i : Instr} (hw : w = encode i) (hi : WellFormed i = true) : decode w = i :=
  hw ▸ decode_encode i hi

theorem toNat_zextAddr (nnn : BitVec 12) : (zextAddr nnn).toNat = nnn.toNat :=
  BitVec.toNat_setWidth_of_le (by decide)

/-! ## The call stack -/

section
variable {s : State} {j : Fin 16}

/-- The state after a push at depth `j`. -/
def State.pushed (s : State) (j : Fin 16) (target : Word) : State :=
  { s with stack := s.stack.set j.val s.pc, sp := j.succ, pc := target }

theorem pushAndJump_of_depth (target : Word) (hj : s.sp.val = j.val) :
    pushAndJump target s = .next (s.pushed j target) := by
  obtain ⟨k, hk, hr⟩ | ⟨hfull, -⟩ := pushAndJump_cases target s
  · obtain rfl : k = j := Fin.ext (hk.symm.trans hj)
    exact hr
  · have h16 : s.sp.val = 16 := congrArg Fin.val hfull
    omega

theorem pushAndJump_of_full (target : Word) (hfull : s.sp = 16) :
    pushAndJump target s = .next (latchFault .stackOverflow s.instrAddr 16 s) := by
  obtain ⟨k, hk, -⟩ | ⟨-, hr⟩ := pushAndJump_cases target s
  · have h16 : s.sp.val = 16 := congrArg Fin.val hfull
    omega
  · exact hr

theorem popToPc_of_depth (hj : s.sp.val = j.val + 1) :
    popToPc s = .next { s with sp := j.castSucc, pc := s.stack[j.val] } := by
  obtain ⟨k, hk, hr⟩ | ⟨hempty, -⟩ := popToPc_cases s
  · obtain rfl : k = j := Fin.ext (by omega)
    exact hr
  · have h0 : s.sp.val = 0 := congrArg Fin.val hempty
    omega

theorem popToPc_of_empty (hempty : s.sp = 0) :
    popToPc s = .next (latchFault .stackUnderflow s.instrAddr 0 s) := by
  obtain ⟨k, hk, -⟩ | ⟨-, hr⟩ := popToPc_cases s
  · have h0 : s.sp.val = 0 := congrArg Fin.val hempty
    omega
  · exact hr

@[simp] theorem pushed_stack_same (target : Word) : (s.pushed j target).stack[j.val] = s.pc := Vector.getElem_set_self _

theorem pushed_stack_other (target : Word) {k : Fin 16} (hjk : j ≠ k) :
    (s.pushed j target).stack[k.val] = s.stack[k.val] :=
  Vector.getElem_set_ne j.isLt k.isLt fun h => hjk (Fin.ext h)

theorem changesOnly_pushed (target : Word) :
    changesOnly s (s.pushed j target) (fun e => e = .pc ∨ e = .depth ∨ e = .entry j) := by
  intro e he
  cases e with
  | pc => exact absurd (.inl rfl) he
  | depth => exact absurd (.inr (.inl rfl)) he
  | entry k => exact pushed_stack_other target fun hjk => he (.inr (.inr (congrArg _ hjk.symm)))
  | _ => rfl

theorem changesOnly_popped (d : Fin 17) (p : Word) :
    changesOnly s { s with sp := d, pc := p } (fun e => e = .pc ∨ e = .depth) :=
  have h : WritesOnly (fun e => e = .pc ∨ e = .depth) s s := .refl
  WritesOnly.changesOnly { h with pc := .inr (.inl rfl), depth := .inr (.inr rfl) }

/-- A return undoes a call: if the depth is the one after a push by `s` and the top entry is the one it pushed, the pop restores
the `pc` and the depth of `s`. -/
theorem popToPc_of_pushed {u : State} (hj : s.sp.val = j.val) (hsp : u.sp = j.succ) (htop : u.stack[j.val] = s.pc) :
    popToPc u = .next { u with sp := s.sp, pc := s.pc } := by
  have hdepth : s.sp = j.castSucc := Fin.ext hj
  rw [popToPc_of_depth (congrArg Fin.val hsp), htop, hdepth]

end

/-- Settles O22: the pop finds the entry of the push on top, and the entries below it are those of the caller, which the push
left. -/
theorem callsAndReturnsNest : Obligations.CallsAndReturnsNest := by
  intro nnn g s t u v hdepth hcall hsp hstack hret
  obtain ⟨j, hj⟩ : ∃ j : Fin 16, s.sp.val = j.val := ⟨⟨_, hdepth⟩, rfl⟩
  cases (pushAndJump_of_depth (zextAddr nnn) hj).symm.trans hcall
  have htop : u.stack[j.val] = s.pc := (hstack j (Nat.lt_succ_self _)).trans (pushed_stack_same _)
  cases (popToPc_of_pushed hj hsp htop).symm.trans hret
  refine ⟨rfl, rfl, rfl, fun k hk => ?_⟩
  have hkj : k.val < j.val := hj ▸ hk
  calc u.stack[k.val] = (s.pushed j (zextAddr nnn)).stack[k.val] := hstack k (Nat.lt_succ_of_lt hkj)
    _ = s.stack[k.val] := pushed_stack_other _ (Fin.ne_of_gt hkj)

/-- Settles O18: the pop at depth 0 and above it; the bound on `pc` is the invariant's bound on the entries. -/
theorem returnPopsPc : Obligations.ReturnPopsPc := by
  intro g s
  refine ⟨by decide, fun hempty => ⟨_, popToPc_of_empty hempty, faultedAs_latch ..⟩, fun j hj => ?_⟩
  refine ⟨_, popToPc_of_depth hj, rfl, rfl, fun hinv => ?_, fun hf htop => ?_, changesOnly_popped _ _⟩
  · obtain ⟨-, -, hentries⟩ := (inv_iff s).1 hinv
    exact hentries j
  · exact fetch_outOfRange _ hf (show s.stack[j.val].toNat > 0xFFE by rw [htop]; decide)

/-- Settles O21: the push at depth 16 and below it, and the pop that undoes it, which does not read `pc`. -/
theorem callPushesReturnAddress : Obligations.CallPushesReturnAddress := by
  intro nnn s
  refine ⟨decode_of_eq_encode (wordNNN_toNat 2 nnn) rfl, fun hfull => ?_, fun j hj => ?_⟩
  · exact ⟨_, pushAndJump_of_full _ hfull, faultedAs_latch ..⟩
  · have htop := pushed_stack_same (s := s) (j := j) (zextAddr nnn)
    exact ⟨_, pushAndJump_of_depth _ hj, rfl, htop, toNat_zextAddr nnn, changesOnly_pushed _,
      fun _ _ => ⟨_, popToPc_of_pushed hj rfl htop, rfl, rfl⟩⟩

/-! ## Jumps -/

/-- The target of `JP V0, nnn` as a number: 16 bits hold the sum of a byte and 12 bits. -/
theorem toNat_jpV0Target (b : Byte) (nnn : BitVec 12) :
    (zextByte b + zextAddr nnn).toNat = b.toNat + nnn.toNat := by
  have hb : (zextByte b).toNat = b.toNat := BitVec.toNat_setWidth_of_le (by decide)
  rw [BitVec.toNat_add, hb, toNat_zextAddr]
  omega

/-- Settles O19: the target is the operand, and `0xFFF` is past the last address of a fetch. -/
theorem jumpIsAbsolute : Obligations.JumpIsAbsolute := by
  intro nnn s
  exact ⟨decode_of_eq_encode (wordNNN_toNat 1 nnn) rfl, _, rfl, toNat_zextAddr nnn, changesOnly_pc _ _,
    fun hf hnnn => fetch_outOfRange _ hf (show (zextAddr nnn).toNat > 0xFFE by rw [hnnn]; decide)⟩

/-- Settles O25: the sum as a number, and the fetch check on it. -/
theorem jumpWithOffsetAddsV0 : Obligations.JumpWithOffsetAddsV0 := by
  intro nnn s
  have htarget := toNat_jpV0Target (s.getV 0) nnn
  exact ⟨decode_of_eq_encode (wordNNN_toNat 0xB nnn) rfl, _, rfl, htarget, jpV0Target_toNat_le .., changesOnly_pc _ _,
    fun hf hsum => fetch_outOfRange _ hf (htarget ▸ hsum)⟩

/-- Settles O20: the jump sets `pc` back to what it was before the advance, and the advance is all else that the step does. -/
theorem jumpToSelfChangesNothing : Obligations.JumpToSelfChangesNothing := by
  intro s nnn hs hpc hword
  have hdecode : decode (Memory.fetchWord s.mem s.pc.toNat) = .jp nnn :=
    decode_of_eq_encode (hword.trans (wordNNN_toNat 1 nnn)) rfl
  have htarget : zextAddr nnn = s.pc := BitVec.eq_of_toNat_eq ((toNat_zextAddr nnn).trans hpc.symm)
  calc step s = jumpTo (zextAddr nnn) s.advance := by rw [step_of_fetches hs, hdecode]; rfl
    _ = .next s := by rw [htarget]; rfl

/-! ## Skips -/

section
variable (a b : Byte) (s : State)

theorem skipIf_beq : ∃ t, skipIf (a == b) s = .next t ∧ (a = b → t.pc = s.pc + 2) ∧ (a ≠ b → t.pc = s.pc) ∧
    changesOnly s t (fun e => e = .pc) :=
  ⟨_, skipIf_eq _ s, fun h => if_pos (beq_iff_eq.2 h), fun h => if_neg (mt beq_iff_eq.1 h), changesOnly_pc _ _⟩

theorem skipIf_bne : ∃ t, skipIf (a != b) s = .next t ∧ (a = b → t.pc = s.pc) ∧ (a ≠ b → t.pc = s.pc + 2) ∧
    changesOnly s t (fun e => e = .pc) :=
  ⟨_, skipIf_eq _ s, fun h => if_neg fun hne => bne_iff_ne.1 hne h, fun h => if_pos (bne_iff_ne.2 h), changesOnly_pc _ _⟩

end

/-- Settles O23: a skip on equality and one on inequality, of `V[x]` and the immediate. -/
theorem skipsOnImmediate : Obligations.SkipsOnImmediate := fun x kk s =>
  ⟨decode_of_eq_encode (wordXKK_toNat 3 x kk) rfl, decode_of_eq_encode (wordXKK_toNat 4 x kk) rfl,
    skipIf_beq (s.getV x) kk s, skipIf_bne (s.getV x) kk s⟩

/-- Settles O24: a skip on equality and one on inequality, of two registers, which are equal when they are the same one. -/
theorem skipsOnRegisters : Obligations.SkipsOnRegisters := by
  intro x y g s
  have hsame : x = y → s.getV x = s.getV y := congrArg s.getV
  obtain ⟨t, ht, hteq, htne, htframe⟩ := skipIf_beq (s.getV x) (s.getV y) s
  obtain ⟨u, hu, hueq, hune, huframe⟩ := skipIf_bne (s.getV x) (s.getV y) s
  exact ⟨decode_of_eq_encode (wordXYN_toNat 5 x y g) rfl, decode_of_eq_encode (wordXYN_toNat 9 x y g) rfl,
    ⟨t, ht, hteq, htne, hteq ∘ hsame, htframe⟩, ⟨u, hu, hueq, hune, hueq ∘ hsame, huframe⟩⟩

end Sys2Proof.Machine
end

section
/-! PROOF. Register and ALU instructions (42_alu.md): what each flag is as a number, what a flagged write leaves in `VF` and in
the destination, and from them the meaning of every register operation. -/

namespace Sys2Proof.Machine

open Sys2Proof.Claims

/-! ## Results and flags as numbers -/

/-- `diff8` never borrows below 0, so as an integer it is the remainder of the true difference. -/
theorem intCast_toNat_diff8 (a b : Byte) : ((diff8 a b).toNat : Int) = ((a.toNat : Int) - (b.toNat : Int)) % 256 := by
  rw [toNat_diff8]
  omega

theorem toNat_flagByte (p : Prop) [Decidable p] : (flagByte (decide p)).toNat = if p then 1 else 0 := by
  by_cases hp : p <;> simp [flagByte, hp]

theorem toNat_carryFlag (a b : Byte) : (carryFlag a b).toNat = if a.toNat + b.toNat > 255 then 1 else 0 := toNat_flagByte _

theorem toNat_greaterFlag (a b : Byte) : (greaterFlag a b).toNat = if a.toNat > b.toNat then 1 else 0 := toNat_flagByte _

theorem toNat_lowBitFlag (a : Byte) : (lowBitFlag a).toNat = a.toNat % 2 :=
  (BitVec.toNat_ofNat ..).trans (Nat.mod_eq_of_lt (by omega))

theorem toNat_highBitFlag (a : Byte) : (highBitFlag a).toNat = a.toNat / 128 :=
  (BitVec.toNat_ofNat ..).trans (Nat.mod_eq_of_lt (by omega))

/-! ## Writes with no flag -/

theorem writeReg_answers (x : Reg) (b : Byte) (s : State) :
    ∃ t, writeReg x b s = .next t ∧ t.getV x = b ∧ changesOnly s t (fun e => e = .reg x) :=
  ⟨_, rfl, getV_setV_same s x b, changesOnly_setV s x b⟩

/-- Settles O26: two plain register writes, of the immediate and of the truncated sum. -/
theorem immediateLoadAndAdd : Obligations.ImmediateLoadAndAdd := by
  intro x kk s
  obtain ⟨t, ht, htx, hframe⟩ := writeReg_answers x (sum8 (s.getV x) kk) s
  exact ⟨decode_of_eq_encode (wordXKK_toNat 6 x kk) rfl, decode_of_eq_encode (wordXKK_toNat 7 x kk) rfl,
    writeReg_answers x kk s, t, ht, htx ▸ toNat_sum8 .., hframe⟩

/-- Settles O27: four plain register writes, three of them of a byte given bit by bit. -/
theorem registerCopyAndLogic : Obligations.RegisterCopyAndLogic := by
  intro x y s
  obtain ⟨t, ht, htx, htframe⟩ := writeReg_answers x (s.getV x ||| s.getV y) s
  obtain ⟨u, hu, hux, huframe⟩ := writeReg_answers x (s.getV x &&& s.getV y) s
  obtain ⟨v, hv, hvx, hvframe⟩ := writeReg_answers x (s.getV x ^^^ s.getV y) s
  refine ⟨decode_of_eq_encode (wordXYN_toNat 8 x y 0) rfl, decode_of_eq_encode (wordXYN_toNat 8 x y 1) rfl,
    decode_of_eq_encode (wordXYN_toNat 8 x y 2) rfl, decode_of_eq_encode (wordXYN_toNat 8 x y 3) rfl,
    writeReg_answers x (s.getV y) s, ⟨t, ht, fun b => ?_, htframe⟩, ⟨u, hu, fun b => ?_, huframe⟩,
    ⟨v, hv, fun b => ?_, hvframe⟩⟩
  · rw [htx, BitVec.getLsbD_or, Bool.or_eq_true]
  · rw [hux, BitVec.getLsbD_and, Bool.and_eq_true]
  · rw [hvx, BitVec.getLsbD_xor, Bool.xor_iff_ne]

/-! ## Writes with a flag -/

/-- The flag is written first (R170), so that the result stays when the destination is `VF` and the flag stays when it is not. -/
theorem writeFlagged_answers (x : Reg) (f b : Byte) (s : State) :
    ∃ t, writeFlagged x f b s = .next t ∧ t.getV x = b ∧ (x ≠ 15 → t.getV 15 = f) ∧
      changesOnly s t (fun e => e = .reg x ∨ e = .reg 15) :=
  ⟨_, rfl, getV_setV_same _ x b, fun hx => (getV_setV_other _ x 15 b hx).trans (getV_setV_same s 15 f),
    changesOnly_flagged s x f b⟩

/-- A flagged write, with the result and the flag given as numbers. -/
theorem writeFlagged_toNat {x : Reg} {f b : Byte} {m n : Nat} (s : State) (hb : b.toNat = m) (hf : f.toNat = n) :
    ∃ t, writeFlagged x f b s = .next t ∧ (t.getV x).toNat = m ∧ (x ≠ 15 → (t.getV 15).toNat = n) ∧
      changesOnly s t (fun e => e = .reg x ∨ e = .reg 15) := by
  obtain ⟨t, ht, htx, htflag, hframe⟩ := writeFlagged_answers x f b s
  exact ⟨t, ht, htx ▸ hb, fun hx => htflag hx ▸ hf, hframe⟩

/-- Settles O28: the truncated sum and the carry. -/
theorem addSetsSumAndCarry : Obligations.AddSetsSumAndCarry := fun x y s =>
  ⟨decode_of_eq_encode (wordXYN_toNat 8 x y 4) rfl, writeFlagged_toNat s (toNat_sum8 ..) (toNat_carryFlag ..)⟩

/-- What `SUB` and `SUBN` share: they differ only in which operand is subtracted from which. -/
theorem writeDifference_answers (x : Reg) (a b : Byte) (s : State) :
    ∃ t, writeFlagged x (greaterFlag a b) (diff8 a b) s = .next t ∧
      ((t.getV x).toNat : Int) = ((a.toNat : Int) - (b.toNat : Int)) % 256 ∧
      (x ≠ 15 → (t.getV 15).toNat = if a.toNat > b.toNat then 1 else 0) ∧
      changesOnly s t (fun e => e = .reg x ∨ e = .reg 15) := by
  obtain ⟨t, ht, htx, htflag, hframe⟩ := writeFlagged_toNat (x := x) s rfl (toNat_greaterFlag a b)
  exact ⟨t, ht, htx ▸ intCast_toNat_diff8 a b, htflag, hframe⟩

/-- Settles O29: one difference with its flag, taken of `V[x]` and `V[y]` in either order. -/
theorem subtractsSetDifferenceAndFlag : Obligations.SubtractsSetDifferenceAndFlag := fun x y s =>
  ⟨decode_of_eq_encode (wordXYN_toNat 8 x y 5) rfl, decode_of_eq_encode (wordXYN_toNat 8 x y 7) rfl,
    writeDifference_answers x (s.getV x) (s.getV y) s, writeDifference_answers x (s.getV y) (s.getV x) s⟩

/-- Settles O30: half and the low bit, twice mod 256 and the high bit. -/
theorem shiftsSetResultAndLostBit : Obligations.ShiftsSetResultAndLostBit := fun x y s =>
  ⟨decode_of_eq_encode (wordXYN_toNat 8 x y 6) rfl, decode_of_eq_encode (wordXYN_toNat 8 x y 0xE) rfl,
    writeFlagged_toNat s (toNat_shr8 _) (toNat_lowBitFlag _), writeFlagged_toNat s (toNat_shl8 _) (toNat_highBitFlag _)⟩

/-! ## Random bytes -/

theorem rndWith_answers (draw : Byte) (x : Reg) (kk : Byte) (s : State) :
    ∃ t, rndWith draw x kk s = .next t ∧ t.getV x = draw &&& kk ∧
      changesOnly s t (fun e => e = .reg x ∨ e = .draws) :=
  ⟨_, rfl, getV_setV_same _ x _, changesOnly_drawn s x _⟩

/-- Settles O31: `RND` is its meaning at the model's draw, and at every draw it writes the masked byte. -/
theorem randomIsMaskedDraw : Obligations.RandomIsMaskedDraw := by
  intro x kk s
  refine ⟨decode_of_eq_encode (wordXKK_toNat 0xC x kk) rfl, ⟨_, rfl⟩, ?_, fun draw => ?_⟩
  · obtain ⟨t, ht, -, hframe⟩ := rndWith_answers (Config.rndDraw s.draws) x kk s
    exact ⟨t, ht, hframe⟩
  · obtain ⟨t, ht, htx, hframe⟩ := rndWith_answers draw x kk s
    refine ⟨t, ht, fun b => ?_, fun hkk => ?_, fun hkk => ?_, hframe⟩
    · rw [htx, BitVec.getLsbD_and, Bool.and_eq_true]
    · rw [htx, hkk]
      exact BitVec.and_zero
    · rw [htx, hkk]
      exact BitVec.and_allOnes

end Sys2Proof.Machine
end

section
/-! PROOF. Index register and memory (43_index_memory.md): what a range check answers on either side of its bound, the index
writes as numbers, and what the digits, a dump and a load leave in memory and in the registers. -/

namespace Sys2Proof.Machine

open Sys2Proof.Claims

/-! ## The range check, by the last offset of the range (R203) -/

section
variable {last : Nat} {go : State → Result} {s : State}

theorem withRange_of_le (h : s.i.toNat + last ≤ 0xFFF) : withRange (last + 1) go s = go s :=
  withRange_ok _ _ s ((rangeOk_iff s (last + 1)).2 (.inr h))

/-- An instruction that is an access to a range faults when the range ends past `0xFFF`. -/
theorem faults_of_eq_withRange {r : Result} (hr : r = withRange (last + 1) go s) (h : s.i.toNat + last > 0xFFF) :
    ∃ t, r = .next t ∧ faultedAs s t .dataAddressOutOfRange (max s.i.toNat 0x1000) := by
  have hbad : ¬ s.rangeOk (last + 1) = true := by rw [rangeOk_iff]; omega
  exact ⟨_, hr.trans (withRange_fault _ go s (Bool.eq_false_iff.2 hbad)), faultedAs_latch ..⟩

end

/-! ## The index register -/

theorem toNat_zextByte (b : Byte) : (zextByte b).toNat = b.toNat := BitVec.toNat_setWidth_of_le (by decide)

/-- Five times a byte fits in 16 bits. -/
theorem toNat_fontAddr (b : Byte) : (fontAddr b).toNat = 5 * b.toNat :=
  (BitVec.toNat_ofNat ..).trans (Nat.mod_eq_of_lt (by omega))

theorem changesOnly_index (s : State) (a : Word) : changesOnly s { s with i := a } (fun e => e = .index) :=
  have h : WritesOnly (fun e => e = .index) s s := .refl
  WritesOnly.changesOnly { h with index := .inr rfl }

/-- Settles O33: the immediate loses no bits, and the sum of words is the sum mod 65536. -/
theorem indexLoadAndAdd : Obligations.IndexLoadAndAdd := by
  intro x nnn s
  have hsum : (s.i + zextByte (s.getV x)).toNat = (s.i.toNat + (s.getV x).toNat) % 65536 := by
    rw [BitVec.toNat_add, toNat_zextByte]
  exact ⟨decode_of_eq_encode (wordNNN_toNat 0xA nnn) rfl, decode_of_eq_encode (wordXKK_toNat 0xF x 0x1E) rfl,
    ⟨_, rfl, toNat_zextAddr nnn, changesOnly_index s _⟩, ⟨_, rfl, hsum, changesOnly_index s _⟩⟩

/-! ## The font -/

/-- Each glyph stands in the font at five times its digit (10_state.md R31). -/
theorem glyph_eq_fontBytes : ∀ d : Fin 16,
    (glyph0 :: glyphs1toF)[d.val]? = some ((List.range 5).map fun k => fontBytes.getD (5 * d.val + k) 0) := by decide

/-- While the font is in place, the five bytes at five times a digit are its glyph. -/
theorem loadBytes_font {m : Memory} (hfont : ∀ a, a < 0x50 → Memory.read m a = fontBytes.getD a 0) {d : Nat}
    (hd : d < 16) : some (Memory.loadBytes m (5 * d) 5) = (glyph0 :: glyphs1toF)[d]? := by
  rw [glyph_eq_fontBytes ⟨d, hd⟩, Memory.loadBytes]
  refine congrArg some (List.map_congr_left fun k hk => hfont _ ?_)
  have hk : k < 5 := List.mem_range.1 hk
  omega

/-- Settles O34: the index is the address of the glyph, and memory is what it was. -/
theorem fontAddressIsFiveTimesDigit : Obligations.FontAddressIsFiveTimesDigit := by
  intro x s
  have haddr := toNat_fontAddr (s.getV x)
  exact ⟨decode_of_eq_encode (wordXKK_toNat 0xF x 0x29) rfl, _, rfl, haddr, changesOnly_index s _,
    fun hd hfont => haddr ▸ loadBytes_font hfont hd⟩

/-! ## The decimal digits -/

/-- The byte at offset `k` of a block store is the `k`-th byte stored. -/
theorem read_storeBytes_add (m : Memory) (a : Nat) {bs : List Byte} {k : Nat} (hk : k < bs.length) :
    Memory.read (Memory.storeBytes m a bs) (a + k) = bs[k] := by
  rw [read_storeBytes, if_pos (by omega), Nat.add_sub_cancel_left, List.getD_eq_getElem _ _ hk]

/-- The three bytes stored are the digits: a byte cuts off no digit. -/
theorem toNat_read_storeBytes_bcdDigits (m : Memory) (a : Nat) (b : Byte) :
    (Memory.read (Memory.storeBytes m a (bcdDigits b)) a).toNat = b.toNat / 100 ∧
    (Memory.read (Memory.storeBytes m a (bcdDigits b)) (a + 1)).toNat = b.toNat / 10 % 10 ∧
    (Memory.read (Memory.storeBytes m a (bcdDigits b)) (a + 2)).toNat = b.toNat % 10 := by
  have hread (k : Nat) (hk : k < 3) := congrArg BitVec.toNat (read_storeBytes_add m a (bs := bcdDigits b) hk)
  have hdigit {n : Nat} (hn : n < 256) : (BitVec.ofNat 8 n).toNat = n :=
    (BitVec.toNat_ofNat n 8).trans (Nat.mod_eq_of_lt hn)
  exact ⟨(hread 0 (by decide)).trans (hdigit (by omega)), (hread 1 (by decide)).trans (hdigit (by omega)),
    (hread 2 (by decide)).trans (hdigit (by omega))⟩

/-- A store of digits whose range lies inside memory stores them from `I` and changes nothing else. -/
theorem execLdB_ok {x : Reg} {s : State} (h : s.i.toNat + 2 ≤ 0xFFF) :
    execLdB x s = .next { s with mem := Memory.storeBytes s.mem s.i.toNat (bcdDigits (s.getV x)) } := withRange_of_le h

/-- Settles O35: the three digits are one block store. -/
theorem storeBcdWritesDigits : Obligations.StoreBcdWritesDigits := by
  intro x s
  refine ⟨decode_of_eq_encode (wordXKK_toNat 0xF x 0x33) rfl, faults_of_eq_withRange (r := execLdB x s) rfl,
    fun h => ?_⟩
  obtain ⟨hhundreds, htens, hones⟩ := toNat_read_storeBytes_bcdDigits s.mem s.i.toNat (s.getV x)
  exact ⟨_, execLdB_ok h, hhundreds, htens, hones,
    changesOnly_storeBytes s _ (bcdDigits (s.getV x)) _ fun a hlo hhi => ⟨a, rfl, hlo, Nat.le_of_lt_succ hhi⟩⟩

/-! ## Dump and load -/

/-- Settles O36: the dump is a block store of `V[0]`..`V[x]`. -/
theorem registerDumpStoresRange : Obligations.RegisterDumpStoresRange := by
  intro x s
  refine ⟨decode_of_eq_encode (wordXKK_toNat 0xF x 0x55) rfl, faults_of_eq_withRange (r := execLdMemVx x s) rfl,
    fun h => ⟨_, execLdMemVx_ok x s h, fun j hj => read_storeBytes_regsUpTo s _ _ hj, ?_⟩⟩
  refine changesOnly_storeBytes s _ _ _ fun a hlo hhi => ⟨a, rfl, hlo, Nat.le_of_lt_succ ?_⟩
  rwa [length_regsUpTo] at hhi

/-- The state after a load of `V[0]`..`V[x]` from `I`. -/
def State.loaded (s : State) (x : Reg) : State :=
  { s with v := writeRegs s.v 0 (Memory.loadBytes s.mem s.i.toNat (x.val + 1)) }

/-- A load whose range lies inside memory fills `V[0]`..`V[x]` and changes nothing else. -/
theorem execLdVxMem_ok {x : Reg} {s : State} (h : s.i.toNat + x.val ≤ 0xFFF) :
    execLdVxMem x s = .next (s.loaded x) := withRange_of_le h

/-- Everything a load does to the registers: those up to `x` take the bytes from `I`, the others stay. -/
theorem getV_loaded (s : State) (x j : Reg) :
    (s.loaded x).getV j = if j ≤ x then Memory.read s.mem (s.i.toNat + j.val) else s.getV j := by
  rw [State.loaded, State.getV, writeRegs_getElem, length_loadBytes]
  by_cases hj : j ≤ x
  · have hlt : j.val < x.val + 1 := Nat.lt_succ_of_le hj
    simp [hj, hlt, Memory.loadBytes]
  · have hlt : ¬ j.val < x.val + 1 := fun hlt => hj (Nat.le_of_lt_succ hlt)
    simp [hj, hlt, State.getV]

theorem changesOnly_loaded (s : State) (x : Reg) :
    changesOnly s (s.loaded x) (fun e => ∃ j : Reg, e = .reg j ∧ j ≤ x) :=
  (writesOnly_writeRegs x _ (length_loadBytes ..) fun j hj => ⟨j, rfl, hj⟩).changesOnly

/-- Settles O37: the load reads the range, so after a dump of it the load reads the dumped registers. -/
theorem registerLoadReadsRange : Obligations.RegisterLoadReadsRange := by
  intro x s
  refine ⟨decode_of_eq_encode (wordXKK_toNat 0xF x 0x65) rfl, faults_of_eq_withRange (r := execLdVxMem x s) rfl,
    fun h => ⟨?_, fun t v ht => ?_⟩⟩
  · exact ⟨_, execLdVxMem_ok h, fun j hj => by rw [getV_loaded, if_pos hj], changesOnly_loaded s x⟩
  · cases (execLdMemVx_ok x s h).symm.trans ht
    refine ⟨_, execLdVxMem_ok h, fun j => ⟨fun hj => ?_, fun hj => ?_⟩⟩
    · rw [getV_loaded, if_pos hj]
      exact read_storeBytes_regsUpTo s _ _ hj
    · rw [getV_loaded, if_neg (not_le.2 hj)]
      rfl

end Sys2Proof.Machine
end

section
/-! PROOF. Key and timer instructions (44_timers_keys.md): a key access goes on with the key that `V[x]` names or faults, every
pressed key is picked at some draw, and a transfer writes the one element it names. -/

namespace Sys2Proof.Machine

open Sys2Proof.Claims

/-! ## Skips on a key -/

section
variable {x : Reg} {go : Bool → State → Result} {s : State}

theorem withKey_of_toNat_eq {k : Fin 16} (hk : (s.getV x).toNat = k.val) : withKey x go s = go s.keys[k.val] s := by
  obtain ⟨j, hj, hr⟩ | ⟨hx, -⟩ := withKey_cases x go s
  · obtain rfl : j = k := Fin.ext (hj.symm.trans hk)
    exact hr
  · exact absurd k.isLt (by omega)

/-- An instruction that is an access to a key faults when `V[x]` names none. -/
theorem faults_of_eq_withKey {r : Result} (hr : r = withKey x go s) (hx : (s.getV x).toNat > 15) :
    ∃ t, r = .next t ∧ faultedAs s t .keyIndexOutOfRange (s.getV x).toNat := by
  obtain ⟨k, hk, -⟩ | ⟨-, hlatch⟩ := withKey_cases x go s
  · exact absurd k.isLt (by omega)
  · exact ⟨_, hr.trans hlatch, faultedAs_latch ..⟩

/-- What `SKP` and `SKNP` share: they differ only in the condition `c` on the key. -/
theorem keySkip_answers (c : Bool → Bool) {k : Fin 16} (hk : (s.getV x).toNat = k.val) :
    ∃ t, withKey x (fun pressed s => skipIf (c pressed) s) s = .next t ∧ (c s.keys[k.val] = true → t.pc = s.pc + 2) ∧
      (c s.keys[k.val] = false → t.pc = s.pc) ∧ changesOnly s t (fun e => e = .pc) :=
  ⟨_, (withKey_of_toNat_eq hk).trans (skipIf_eq _ s), fun hc => if_pos hc,
    fun hc => if_neg (Bool.eq_false_iff.1 hc), changesOnly_pc _ _⟩

end

/-- Settles O39: both are accesses to the key that `V[x]` names, one a skip when it is pressed and one when it is not. -/
theorem keySkipsTestNamedKey : Obligations.KeySkipsTestNamedKey := by
  intro x s
  refine ⟨decode_of_eq_encode (wordXKK_toNat 0xE x 0x9E) rfl, decode_of_eq_encode (wordXKK_toNat 0xE x 0xA1) rfl,
    fun hx => ⟨faults_of_eq_withKey (r := execSkp x s) rfl hx, faults_of_eq_withKey (r := execSknp x s) rfl hx⟩,
    fun k hk => ⟨keySkip_answers id hk, ?_⟩⟩
  obtain ⟨t, ht, hreleased, hpressed, hframe⟩ := keySkip_answers not hk
  exact ⟨t, ht, hreleased ∘ congrArg not, hpressed ∘ congrArg not, hframe⟩

/-! ## The wait for a key -/

/-- Every key of the list is picked at some draw: its position is one. -/
theorem exists_pickKey_eq_some {k : Reg} {ks : List Reg} (hk : k ∈ ks) : ∃ draw, pickKey draw ks = some k := by
  match ks with
  | [] => exact absurd hk List.not_mem_nil
  | [_] => exact ⟨0, congrArg some (List.mem_singleton.1 hk).symm⟩
  | k₀ :: k₁ :: ks =>
    obtain ⟨draw, hlt, hget⟩ := List.getElem_of_mem hk
    refine ⟨draw, ?_⟩
    show (k₀ :: k₁ :: ks)[draw % (k₀ :: k₁ :: ks).length]? = some k
    rw [Nat.mod_eq_of_lt hlt, List.getElem?_eq_getElem hlt, hget]

/-- The number of a key fits in a register. -/
theorem toNat_getV_setV_key (s : State) (x : Reg) (k : Fin 16) :
    ((s.setV x (BitVec.ofNat 8 k.val)).getV x).toNat = k.val := by
  rw [getV_setV_same]
  exact (BitVec.toNat_ofNat ..).trans (Nat.mod_eq_of_lt (by omega))

section
variable (draw : Nat) (x : Reg) (s : State)

theorem waitKeyWith_noKey (hnone : ∀ k : Fin 16, s.keys[k.val] = false) :
    waitKeyWith draw x s = .next { s with pc := s.pc - 2 } := by
  obtain ⟨k, hk, -⟩ | ⟨-, hr⟩ := waitKeyWith_cases draw x s
  · exact absurd ((mem_pressedKeys _ k).1 hk) (Bool.eq_false_iff.1 (hnone k))
  · exact hr

theorem waitKeyWith_someKey (hsome : ∃ k : Fin 16, s.keys[k.val] = true) :
    ∃ k : Fin 16, s.keys[k.val] = true ∧
      waitKeyWith draw x s = .next (({ s with draws := s.draws + 1 }).setV x (BitVec.ofNat 8 k.val)) := by
  obtain ⟨k, hk, hr⟩ | ⟨hnil, -⟩ := waitKeyWith_cases draw x s
  · exact ⟨k, (mem_pressedKeys _ k).1 hk, hr⟩
  · obtain ⟨k, hk⟩ := hsome
    exact absurd ((mem_pressedKeys _ k).2 hk) (hnil ▸ List.not_mem_nil)

theorem waitKeyWith_of_pickKey {k : Reg} (hpick : pickKey draw (pressedKeys s.keys) = some k) :
    waitKeyWith draw x s = .next (({ s with draws := s.draws + 1 }).setV x (BitVec.ofNat 8 k.val)) := by
  rw [waitKeyWith, hpick]
  rfl

end

/-- Settles O40: the wait answers by whether a key is pressed, and every pressed key is picked at some draw. -/
theorem waitForKeyTakesPressedKey : Obligations.WaitForKeyTakesPressedKey := by
  intro x s
  refine ⟨decode_of_eq_encode (wordXKK_toNat 0xF x 0x0A) rfl, ⟨_, rfl⟩, fun hnone => ?_, fun hsome => ?_, fun k hk => ?_⟩
  · exact ⟨_, waitKeyWith_noKey _ x s hnone, rfl, changesOnly_pc _ _⟩
  · obtain ⟨k, hk, hr⟩ := waitKeyWith_someKey (Config.keyPick s.draws) x s hsome
    exact ⟨_, hr, ⟨k, hk, toNat_getV_setV_key _ x k⟩, changesOnly_drawn s x _⟩
  · obtain ⟨draw, hpick⟩ := exists_pickKey_eq_some ((mem_pressedKeys _ k).2 hk)
    exact ⟨draw, _, waitKeyWith_of_pickKey draw x s hpick, toNat_getV_setV_key _ x k⟩

/-! ## Timers -/

theorem changesOnly_dt (s : State) (b : Byte) : changesOnly s { s with dt := b } (fun e => e = .delay) :=
  have h : WritesOnly (fun e => e = .delay) s s := .refl
  WritesOnly.changesOnly { h with delay := .inr rfl }

theorem changesOnly_st (s : State) (b : Byte) : changesOnly s { s with st := b } (fun e => e = .sound) :=
  have h : WritesOnly (fun e => e = .sound) s s := .refl
  WritesOnly.changesOnly { h with sound := .inr rfl }

/-- Settles O41: one register write and two timer writes. -/
theorem timerTransfers : Obligations.TimerTransfers := fun x s =>
  ⟨decode_of_eq_encode (wordXKK_toNat 0xF x 0x07) rfl, decode_of_eq_encode (wordXKK_toNat 0xF x 0x15) rfl,
    decode_of_eq_encode (wordXKK_toNat 0xF x 0x18) rfl, writeReg_answers x s.dt s,
    ⟨_, rfl, rfl, changesOnly_dt s _⟩, ⟨_, rfl, rfl, changesOnly_st s _⟩⟩

end Sys2Proof.Machine
end

section
/-! PROOF. The display (45_display.md): what a draw leaves in each cell, in `VF` and in `dirty`, said over the cells that the
sprite covers, and that a second draw at the same place covers the same cells. -/

namespace Sys2Proof.Machine

open Sys2Proof.Claims

/-! ## Clear screen -/

/-- Settles O48: the cleared buffer has every cell off. -/
theorem clearScreenBlanksAndMarks : Obligations.ClearScreenBlanksAndMarks := by
  intro g s
  have h : WritesOnly (fun e => e = .dirty ∨ ∃ p, e = .cell p) s s := .refl
  exact ⟨rfl, _, rfl, fun p _ => cell_blank p, rfl,
    WritesOnly.changesOnly { h with fb := .inr fun p => .inr ⟨p, rfl⟩, dirty := .inr (.inl rfl) }⟩

/-! ## The cells a sprite covers -/

section
variable {s : State} {x y : Reg} {n : Nibble} {p : Nat}

/-- The 1 bits of the sprite in memory, each with its cell, are what the blit folds over. -/
theorem covers_iff_mem_spriteBits : covers s x y n p ↔
    (p, true) ∈ spriteBits (s.getV x).toNat (s.getV y).toNat 0 (Memory.loadBytes s.mem s.i.toNat n.toNat) := by
  have hrow {r : Nat} (hr : r < n.toNat) :
      (Memory.loadBytes s.mem s.i.toNat n.toNat).getD r 0 = Memory.read s.mem (s.i.toNat + r) := by
    rw [List.getD_eq_getElem _ _ ((length_loadBytes ..).symm ▸ hr), loadBytes_getElem]
  rw [mem_spriteBits]
  constructor
  · rintro ⟨r, c, hr, hc, hbit, hp⟩
    exact ⟨r, c, (length_loadBytes ..).symm ▸ hr, hc, by rw [hrow hr, hbit, Nat.zero_add]; exact congrArg (·, true) hp⟩
  · rintro ⟨r, c, hr, hc, he⟩
    rw [length_loadBytes] at hr
    obtain ⟨hp, hbit⟩ := Prod.mk.inj he
    rw [hrow hr] at hbit
    exact ⟨r, c, hr, hc, hbit.symm, by rw [hp, Nat.zero_add]; rfl⟩

theorem lt_of_covers (h : covers s x y n p) : p < 2048 := by
  obtain ⟨r, c, -, -, -, rfl⟩ := h
  exact cellAt_lt ..

/-! ## What a draw does -/

/-- What the blit of `DRW Vx, Vy, n` accumulates. -/
def State.spriteBlit (s : State) (x y : Reg) (n : Nibble) : Blit :=
  blit (s.getV x).toNat (s.getV y).toNat (Memory.loadBytes s.mem s.i.toNat n.toNat) s.fb

/-- Everything the blit of a sprite does, over the cells that the sprite covers. -/
theorem spriteBlit_spec (s : State) (x y : Reg) (n : Nibble) :
    (∀ p, p < 2048 →
      (covers s x y n p → FrameBuffer.cell (s.spriteBlit x y n).fb p = !FrameBuffer.cell s.fb p) ∧
      (¬ covers s x y n p → FrameBuffer.cell (s.spriteBlit x y n).fb p = FrameBuffer.cell s.fb p)) ∧
    ((s.spriteBlit x y n).collision = true ↔ ∃ p, covers s x y n p ∧ FrameBuffer.cell s.fb p = true) ∧
    ((s.spriteBlit x y n).changed = true ↔ ∃ p, covers s x y n p) := by
  have hlen : (Memory.loadBytes s.mem s.i.toNat n.toNat).length ≤ 16 := by
    have hn := n.isLt
    rw [length_loadBytes]
    omega
  obtain ⟨hcell, hcollision, hchanged⟩ := blit_spec (s.getV x).toNat (s.getV y).toNat _ s.fb hlen
  simp only [covers_iff_mem_spriteBits]
  refine ⟨fun p hp => ⟨fun hhit => ?_, fun hmiss => ?_⟩, hcollision, hchanged⟩
  · rw [State.spriteBlit, hcell p hp, decide_eq_true hhit, Bool.xor_true]
  · rw [State.spriteBlit, hcell p hp, decide_eq_false hmiss, Bool.xor_false]

/-- The state after a draw of a sprite that lies inside memory. -/
def State.drawn (s : State) (x y : Reg) (n : Nibble) : State :=
  { s.setV Reg.flag (flagByte (s.spriteBlit x y n).collision) with
    fb := (s.spriteBlit x y n).fb, dirty := s.dirty || (s.spriteBlit x y n).changed }

theorem spriteRangeOk_iff : s.rangeOk n.toNat = true ↔ n = 0 ∨ s.i.toNat + n.toNat - 1 ≤ 0xFFF := by
  have hzero : n = 0 ↔ n.toNat = 0 := BitVec.toNat_inj.symm
  rw [rangeOk_iff, hzero]
  omega

theorem execDrw_ok (h : n = 0 ∨ s.i.toNat + n.toNat - 1 ≤ 0xFFF) : execDrw x y n s = .next (s.drawn x y n) :=
  withRange_ok _ _ s (spriteRangeOk_iff.2 h)

theorem execDrw_faults (hn : n ≠ 0) (h : s.i.toNat + n.toNat - 1 > 0xFFF) :
    ∃ t, execDrw x y n s = .next t ∧ faultedAs s t .dataAddressOutOfRange (max s.i.toNat 0x1000) := by
  have hbad : ¬ s.rangeOk n.toNat = true := by
    rw [spriteRangeOk_iff]
    exact not_or.2 ⟨hn, Nat.not_le.2 h⟩
  exact ⟨_, withRange_fault _ _ s (Bool.eq_false_iff.2 hbad), faultedAs_latch ..⟩

theorem cell_drawn_of_covers (h : covers s x y n p) :
    FrameBuffer.cell (s.drawn x y n).fb p = !FrameBuffer.cell s.fb p :=
  ((spriteBlit_spec s x y n).1 p (lt_of_covers h)).1 h

theorem cell_drawn_of_not_covers (hp : p < 2048) (h : ¬ covers s x y n p) :
    FrameBuffer.cell (s.drawn x y n).fb p = FrameBuffer.cell s.fb p :=
  ((spriteBlit_spec s x y n).1 p hp).2 h

theorem flagByte_eq_one_iff : ∀ c : Bool, flagByte c = 1 ↔ c = true := by decide

theorem flagByte_eq_zero_iff : ∀ c : Bool, flagByte c = 0 ↔ ¬ c = true := by decide

theorem getV_drawn_flag (s : State) (x y : Reg) (n : Nibble) :
    (s.drawn x y n).getV 15 = flagByte (s.spriteBlit x y n).collision := getV_setV_same s Reg.flag _

theorem drawn_flag_eq_one_iff :
    (s.drawn x y n).getV 15 = 1 ↔ ∃ p, covers s x y n p ∧ FrameBuffer.cell s.fb p = true := by
  rw [getV_drawn_flag, flagByte_eq_one_iff]
  exact (spriteBlit_spec s x y n).2.1

theorem drawn_flag_eq_zero_iff :
    (s.drawn x y n).getV 15 = 0 ↔ ¬ ∃ p, covers s x y n p ∧ FrameBuffer.cell s.fb p = true := by
  rw [getV_drawn_flag, flagByte_eq_zero_iff]
  exact not_congr (spriteBlit_spec s x y n).2.1

theorem drawn_dirty_iff : (s.drawn x y n).dirty = true ↔ s.dirty = true ∨ ∃ p, covers s x y n p :=
  Bool.or_eq_true_iff.trans (or_congr_right (spriteBlit_spec s x y n).2.2)

theorem changesOnly_drawn_sprite (s : State) (x y : Reg) (n : Nibble) :
    changesOnly s (s.drawn x y n) (fun e => e = .reg 15 ∨ e = .dirty ∨ ∃ p, e = .cell p) := by
  obtain ⟨t, ht, hw⟩ := finishDraw_within (w := fun e => e = .reg 15 ∨ e = .dirty ∨ ∃ p, e = .cell p) (s := s)
    (s.spriteBlit x y n) (.inl rfl) (fun p => .inr (.inr ⟨p, rfl⟩)) (.inr (.inl rfl))
  cases ht
  exact hw.changesOnly

end

/-- Settles O49: the range check decides between the fault and the draw, and the draw is the blit of the sprite. -/
theorem drawXorsCoveredCells : Obligations.DrawXorsCoveredCells := by
  intro x y n s
  exact ⟨decode_of_eq_encode (wordXYN_toNat 0xD x y n) rfl, execDrw_faults, fun h =>
    ⟨_, execDrw_ok h, fun p hp => ⟨cell_drawn_of_covers, cell_drawn_of_not_covers hp⟩, drawn_flag_eq_one_iff.2,
      drawn_flag_eq_zero_iff.2, drawn_dirty_iff, changesOnly_drawn_sprite s x y n⟩⟩

/-! ## A second draw at the same place -/

section
variable {s : State} {x y : Reg} {n : Nibble} {p : Nat}

/-- A draw that keeps its two coordinates leaves the sprite where it was. -/
theorem covers_drawn_iff (hx : (s.drawn x y n).getV x = s.getV x) (hy : (s.drawn x y n).getV y = s.getV y) :
    covers (s.drawn x y n) x y n p ↔ covers s x y n p := by
  rw [covers, covers, hx, hy]
  rfl

theorem cell_drawn_drawn (hx : (s.drawn x y n).getV x = s.getV x) (hy : (s.drawn x y n).getV y = s.getV y)
    (hp : p < 2048) : FrameBuffer.cell ((s.drawn x y n).drawn x y n).fb p = FrameBuffer.cell s.fb p := by
  by_cases h : covers s x y n p
  · rw [cell_drawn_of_covers ((covers_drawn_iff hx hy).2 h), cell_drawn_of_covers h, Bool.not_not]
  · rw [cell_drawn_of_not_covers hp (mt (covers_drawn_iff hx hy).1 h), cell_drawn_of_not_covers hp h]

/-- The second draw collides in exactly the cells that the first one lit. -/
theorem drawn_drawn_flag_eq_one_iff (hx : (s.drawn x y n).getV x = s.getV x)
    (hy : (s.drawn x y n).getV y = s.getV y) :
    ((s.drawn x y n).drawn x y n).getV 15 = 1 ↔ ∃ p, covers s x y n p ∧ FrameBuffer.cell s.fb p = false := by
  rw [drawn_flag_eq_one_iff]
  refine exists_congr fun p => ?_
  rw [covers_drawn_iff hx hy]
  refine and_congr_right fun h => ?_
  rw [cell_drawn_of_covers h, Bool.not_eq_true']

end

/-- Settles O50: the second draw covers the same cells, and finds each of them inverted. -/
theorem drawingTwiceRestores : Obligations.DrawingTwiceRestores := by
  intro x y n s t hrange ht hx hy
  cases (execDrw_ok hrange).symm.trans ht
  have hflag := drawn_drawn_flag_eq_one_iff hx hy
  exact ⟨_, execDrw_ok hrange, fun p hp => cell_drawn_drawn hx hy hp, hflag, fun hoff =>
    hflag.trans (exists_congr fun p => and_iff_left_of_imp (hoff p))⟩

end Sys2Proof.Machine
end

section
/-! PROOF. Exceptions and the other events (60_exceptions.md): the fault table and its cause codes, the countdown of the timers,
and what a tick, a key event, the presenter's clear and a debug write leave in the element they name. -/

namespace Sys2Proof.Machine

open Sys2Proof.Claims

/-! ## The fault table -/

/-- No fault has the code that stands for none (R261). -/
theorem Fault.code_ne_zero (f : Fault) : f.code ≠ 0 := by cases f <;> decide

theorem causeCode_eq_zero_iff (s : State) : s.causeCode = 0 ↔ s.fault = none := by
  rw [State.causeCode]
  cases s.fault with
  | none => exact iff_of_true rfl rfl
  | some r => exact iff_of_false r.cause.code_ne_zero (Option.some_ne_none r)

/-- Settles O13: the latch is that of the table whatever word is fetched, and every cause has a code of its own, never 0. -/
theorem faultsAreExactlyTheTable : Obligations.FaultsAreExactlyTheTable :=
  ⟨fun _ _ => step_latches_expectedFault, rfl, causeCode_eq_zero_iff⟩

/-! ## Timers -/

theorem toNat_countDown (t : Byte) : (countDown t).toNat = t.toNat - 1 := by
  rw [countDown]
  split
  next hzero => rw [hzero]; rfl
  next hpos => bv_omega

/-- Settles O42: both timers count down, whatever the fault latch holds. -/
theorem tickCountsDown : Obligations.TickCountsDown := fun s =>
  ⟨tick s, rfl, toNat_countDown s.dt, toNat_countDown s.st, changesOnly_tick s⟩

/-- Settles O43: by induction on the number of ticks, each of which lowers both timers by one and keeps everything else. -/
theorem timersReachZero : Obligations.TimersReachZero := by
  intro s n
  induction n generalizing s with
  | zero => exact ⟨s, rfl, rfl, rfl, changesOnly_refl s _⟩
  | succ n ih =>
    obtain ⟨t, hrun, hdt, hst, hframe⟩ := ih (tick s)
    rw [tick_dt, toNat_countDown, Nat.sub_sub, Nat.add_comm] at hdt
    rw [tick_st, toNat_countDown, Nat.sub_sub, Nat.add_comm] at hst
    exact ⟨t, runEvents_cons_next.2 ⟨tick s, rfl, hrun⟩, hdt, hst, changesOnly_trans (changesOnly_tick s) hframe⟩

/-! ## Keys -/

theorem keySet_key (k : Fin 16) (v : Bool) (s : State) : (keySet k v s).keys[k.val] = v := Vector.getElem_set_self _

/-- Settles O45: the event writes the key it names, and the toggle is that event with the key's negation. -/
theorem keySetWritesOneKey : Obligations.KeySetWritesOneKey := fun k v s =>
  ⟨⟨keySet k v s, rfl, keySet_key k v s, changesOnly_keySet k v s⟩, rfl, keySet_key k _ s⟩

/-! ## The dirty flag -/

theorem step_keeps_dirty {s t : State} (h : step s = .next t) (hs : s.dirty = true) : t.dirty = true := by
  by_cases hsame : t.dirty = s.dirty
  · exact hsame.trans hs
  · exact step_dirty_changed h hsame

/-- Settles O46: `CLS` and a `DRW` that covers a cell set the flag, the table of writers gives it to no other instruction, every
change that a step makes to it sets it, and `DirtyClear` is all that the presenter's turn does to the state. -/
theorem dirtyIsSetByCoreClearedByPresenter : Obligations.DirtyIsSetByCoreClearedByPresenter := by
  refine ⟨fun s => ⟨dirtyClear s, rfl, rfl, changesOnly_dirtyClear s, rfl⟩, fun _ _ => step_keeps_dirty,
    fun g s => ⟨_, rfl, rfl⟩, fun x y n s hrange hcovers => ?_, fun s t h => (step_writesOnly h).dirty.resolve_left⟩
  exact ⟨s.drawn x y n, execDrw_ok (.inr hrange), drawn_dirty_iff.2 (.inr hcovers)⟩

/-! ## Debug writes -/

/-- A write of one byte is a block store of it. -/
theorem changesOnly_memWrite (s : State) (a : Nat) (b : Byte) :
    changesOnly s { s with mem := Memory.write s.mem a b } (fun e => e = .byte a) :=
  changesOnly_storeBytes s a [b] _ fun _ hle hlt => congrArg Element.byte (Nat.le_antisymm (Nat.lt_succ_iff.1 hlt) hle)

/-- Settles O47: each debug write is the write of its element, with that write's frame. -/
theorem pokeWritesOneField : Obligations.PokeWritesOneField := fun s =>
  ⟨fun r b => ⟨_, rfl, getV_setV_same s r b, changesOnly_setV s r b⟩,
    fun w => ⟨_, rfl, rfl, changesOnly_index s w⟩,
    fun w => ⟨_, rfl, rfl, changesOnly_pc s w⟩,
    fun b => ⟨_, rfl, rfl, changesOnly_dt s b⟩,
    fun b => ⟨_, rfl, rfl, changesOnly_st s b⟩,
    fun a b => ⟨_, rfl, read_write_same s.mem a.val b, changesOnly_memWrite s a.val b⟩⟩

end Sys2Proof.Machine
end

section
/-! PROOF. Decoding and encoding are inverse (30_encoding.md R91 to R98, R107), the words of the decode vectors, and that a step
runs the instruction whose word lies at `pc` (40_execution_cycle.md R130 to R132). -/

namespace Sys2Proof.Machine

/-! ## Instructions and their words -/

/-- Settles O1: the fields of a word put together from an instruction's fields are these, and a gap word and a `SYS` word reach
the last arm of their group. -/
theorem decodeOfEncodeIsIdentity : Obligations.DecodeOfEncodeIsIdentity := decode_encode

/-- Settles O2: each group of the decode tree answers a well-formed instruction that keeps every bit of the word. -/
theorem encodeOfDecodeIsIdentity : Obligations.EncodeOfDecodeIsIdentity := fun w =>
  ⟨wellFormed_decode w, encode_decode w⟩

/-- Settles O7: the twenty words are closed terms, and the decode tree computes on them. -/
theorem wordsOfTheSpecDecode : Obligations.WordsOfTheSpecDecode := by
  unfold Obligations.WordsOfTheSpecDecode
  decide

/-! ## The instruction at `pc` -/

/-- Two bytes that decode to an instruction are a word that does. -/
theorem decode_fetchWord_of_decodeBytes {m : Memory} {a : Nat} {i : Instr}
    (h : decodeBytes [Memory.read m a, Memory.read m (a + 1)] = .ok (i, [])) : decode (Memory.fetchWord m a) = i := by
  rw [decodeBytes] at h
  injection h with hpair
  exact congrArg Prod.fst hpair

/-- Memory that holds the two bytes of an instruction holds its word. -/
theorem fetchWord_of_loadBytes {m : Memory} {a : Nat} {i : Instr} (h : Memory.loadBytes m a 2 = encodeBytes i) :
    Memory.fetchWord m a = encode i := by
  have hbytes : [Memory.read m a, Memory.read m (a + 1)] = [(encode i).high, (encode i).low] := h
  injection hbytes with hhigh htail
  injection htail with hlow
  rw [Memory.fetchWord, hhigh, hlow, ofBytes_high_low]

/-- Settles O9: by either premise the word that the step fetches decodes to `i`. -/
theorem stepRunsDecodedInstruction : Obligations.StepRunsDecodedInstruction := by
  intro s i hf hpc hi hbytes
  have hdecode : decode (Memory.fetchWord s.mem s.pc.toNat) = i := by
    obtain hdec | hload := hbytes
    · exact decode_fetchWord_of_decodeBytes hdec
    · exact decode_of_eq_encode (fetchWord_of_loadBytes hload) hi
  rw [step_of_fetches ⟨hf, hpc⟩, hdecode]
  rfl

end Sys2Proof.Machine
end

section
/-! PROOF. The canonical form of memory (log entry 2): the entries of a canonical memory are exactly the bytes that read as
something else than their reset contents, so that its list is determined by what it reads as. -/

namespace Sys2Proof.Machine

/-- Rising addresses name no address twice, so that every entry is the one that is read. -/
theorem read_of_mem {m : Memory} {c : Host.Cell} (hm : m.Pairwise (fun c d => c.1 < d.1)) (hc : c ∈ m) :
    Memory.read m c.1 = c.2 := by
  induction m with
  | nil => cases hc
  | cons d m ih =>
    obtain ⟨hd, hm⟩ := List.pairwise_cons.1 hm
    obtain rfl | hc := List.mem_cons.1 hc
    · exact if_pos rfl
    · exact (if_neg (hd c hc).ne).trans (ih hm hc)

/-- A byte that does not read as its reset contents has an entry. -/
theorem mem_of_read_ne_resetByte {m : Memory} {a : Nat} (h : Memory.read m a ≠ Memory.resetByte a) :
    (a, Memory.read m a) ∈ m := by
  induction m with
  | nil => exact absurd rfl h
  | cons d m ih =>
    rw [Memory.read] at h ⊢
    split at h
    next hda => rw [if_pos hda, ← hda]; exact List.mem_cons_self
    next hda => rw [if_neg hda]; exact List.mem_cons_of_mem d (ih h)

/-- The entries of a canonical memory, by what it reads as. -/
theorem mem_iff_read {m : Memory} (hwf : Memory.wf m) (c : Host.Cell) :
    c ∈ m ↔ c.1 < 0x1000 ∧ c.2 ≠ Memory.resetByte c.1 ∧ Memory.read m c.1 = c.2 := by
  obtain ⟨hrising, hentries⟩ := hwf
  constructor
  · intro hc
    obtain ⟨hlt, hne⟩ := hentries c hc
    exact ⟨hlt, hne, read_of_mem hrising hc⟩
  · rintro ⟨-, hne, hread⟩
    have hc := mem_of_read_ne_resetByte (hread.trans_ne hne)
    rwa [hread] at hc

/-- Settles O17: two canonical memories that read alike have the same entries, and a list at rising addresses is determined by
its entries. -/
theorem canonicalMemoryIsUnique : Obligations.CanonicalMemoryIsUnique := by
  intro m m' hwf hwf' hread
  have hentries (c : Host.Cell) : c ∈ m ↔ c ∈ m' := by
    rw [mem_iff_read hwf, mem_iff_read hwf']
    exact and_congr_right fun hlt => by rw [hread c.1 hlt]
  have hasymm : Std.Asymm (fun c d : Host.Cell => c.1 < d.1) := ⟨fun _ _ => Nat.lt_asymm⟩
  exact hwf.1.eq_of_mem_iff hwf'.1 hentries

end Sys2Proof.Machine
end

section
/-! PROOF. Reset (70_reset_and_hazards.md R302, 10_state.md R35) and the delay timer over every event (R310). -/

namespace Sys2Proof.Machine

/-! ## Memory after reset -/

theorem resetByte_above_font {a : Nat} (h : 0x50 ≤ a) : Memory.resetByte a = 0 := List.getD_eq_default _ _ h

/-- An image leaves the bytes below and above it at their reset contents. -/
theorem read_image_outside {image : List Byte} {a : Nat} (h : a < 0x200 ∨ 0x200 + image.length ≤ a) :
    Memory.read (Memory.storeBytes [] 0x200 image) a = Memory.resetByte a := by
  rw [read_storeBytes, if_neg (by omega)]
  rfl

/-- Settles O53: an image that fits is stored over the reset contents of memory, and every other field is that of the reset
state. -/
theorem resetLoadsImage : Obligations.ResetLoadsImage := by
  refine fun image s => ⟨resetWith_refused image s, fun hfits => ⟨_, resetWith_fits image s hfits, ?_⟩⟩
  refine ⟨fun r => Vector.getElem_replicate _, rfl, rfl, rfl, fun j => Vector.getElem_replicate _, rfl, rfl,
    fun k => Vector.getElem_replicate _, fun p _ => cell_blank p, rfl, rfl, ?font, ?belowImage, ?image, ?aboveImage⟩
  case font => exact fun a ha => read_image_outside (.inl (by omega))
  case belowImage => exact fun a hfont himage => (read_image_outside (.inl himage)).trans (resetByte_above_font hfont)
  case image => exact fun k hk => (read_storeBytes_add [] 0x200 hk).trans (List.getD_eq_getElem image 0 hk).symm
  case aboveImage => exact fun a ha _ => (read_image_outside (.inr ha)).trans (resetByte_above_font (by omega))

/-! ## The delay timer -/

theorem countDown_le (b : Byte) : (countDown b).toNat ≤ b.toNat := toNat_countDown b ▸ Nat.sub_le ..

/-- Settles O44: a step writes the timer only by `LD DT, Vx`, a tick counts it down, a reset zeroes it, and no other event but
the debug write of the timer touches it. -/
theorem delayTimerOnlyFalls : Obligations.DelayTimerOnlyFalls := by
  intro e s t h hstep hpoke
  cases e with
  | step =>
    have hkept : t.dt = s.dt := (step_writesOnly h).delay.resolve_right fun ⟨x, hx⟩ => hstep rfl x hx
    exact hkept ▸ le_rfl
  | tick => cases h; exact countDown_le s.dt
  | keySet | dirtyClear => cases h; exact le_rfl
  | reset image =>
    obtain ⟨-, rfl⟩ := resetWith_next h
    exact Nat.zero_le _
  | poke p =>
    cases h
    cases p with
    | delay b => exact absurd rfl (hpoke b)
    | reg | index | pc | sound | mem => exact le_rfl

end Sys2Proof.Machine
end
